-- ==== Sys2Proof/Word.lean ====
section
/-! DEFINITION. The words that cross the block's interfaces: bytes, chip masks, and the three encodings of
spec/30_encoding.md (R70 requests, R74 framebuffer actions, R75 wire words). -/

namespace Sys2Proof

/-- A byte: the only access width of the block (R53). -/
abbrev Byte := BitVec 8

/-- A chip mask (R12): bit 0 selects chip 1, bit 1 selects chip 2. -/
abbrev Mask := BitVec 2

/-- `CHIP1` of R12. -/
abbrev Mask.chip1 : Mask := 0b01#2
/-- `CHIP2` of R12. -/
abbrev Mask.chip2 : Mask := 0b10#2
/-- `BOTH` of R12. -/
abbrev Mask.both : Mask := 0b11#2
/-- `NONE` of R12. -/
abbrev Mask.none : Mask := 0b00#2

/-- A word of one of the three formats of `opcode_table.json`: `req13`, `fbport19`, `wire9`. The same bits
mean different things on different ports, so a word carries its port. -/
inductive PortWord where
  /-- 13 bits `{op, mask, value}` on `req_word` (R70). -/
  | request (w : BitVec 13)
  /-- 19 bits `{fb_en, fb_we, fb_addr, fb_wdata}` on the framebuffer port (R74). -/
  | action (w : BitVec 19)
  /-- 9 bits `{dc, d}` latched by a chip (R75). -/
  | wire (w : BitVec 9)
  deriving DecidableEq, Repr

end Sys2Proof
end

