-- ==== Sys2Proof/Config.lean ====
section
/-! DEFINITION. What is fixed when the block is built (00_scope.md R6, R7) and the values the spec leaves free.
An opaque constant here has no body a proof could see. -/

namespace Sys2Proof

/-- `PIXELWIDTH` (R6). -/
@[simp] def Config.pixelWidth : Nat := 122
/-- `HEIGHT`, pages of 8 pixel rows (R6). -/
@[simp] def Config.height : Nat := 4
/-- `PAGEBITS` (R6). -/
@[simp] def Config.pageBits : Nat := 8
/-- `FB_SIZE` (R6). -/
@[simp] def Config.fbSize : Nat := 488
/-- `HALF`, panel columns per chip (R6). -/
@[simp] def Config.half : Nat := 61
/-- `CHIP_COLS`, chip column addresses (R6). -/
@[simp] def Config.chipCols : Nat := 80
/-- `CHIP_PAGES` (R6). -/
@[simp] def Config.chipPages : Nat := 4

/-- `N_SETTLE - 1`, OPEN (R7, D2): a free value. -/
opaque Config.settleExtra : Nat

/-- `N_SETTLE` (R7): a build-time constant of which a proof knows only that it is at least 1. R7 lets a model
take it directly. -/
def Config.nSettle : Nat := Config.settleExtra + 1

/-- R7's formula for the settle delay in cycles, `ceil(SETTLE_US × F_CLK_HZ / 10^6)`, at least 1. `SETTLE_US` and
`F_CLK_HZ` are OPEN (D1, D2), so they are arguments. -/
def Config.settleCycles (settleUs fClkHz : Nat) : Nat := max 1 ((settleUs * fClkHz + 999999) / 1000000)

/-- R230: the block meets a settle requirement of `SETTLE_US` microseconds at `F_CLK_HZ` exactly when `N_SETTLE`
is at least `SETTLE_US × F_CLK_HZ / 10^6`. -/
def Config.meetsSettle (settleUs fClkHz : Nat) : Prop := settleUs * fClkHz ≤ Config.nSettle * 1000000

/-- `L_ITEM` for a settle delay of `n` cycles: cycles per byte write (R7). -/
def Config.itemCycles (n : Nat) : Nat := 4 + 2 * n

/-- `L_ITEM` of this block (R7). -/
def Config.lItem : Nat := Config.itemCycles Config.nSettle

/-- `CNT_W` for a settle delay of `n` cycles: the smallest `w ≥ 1` with `2^w > n` (R7). -/
def Config.cntWidth (n : Nat) : Nat := Nat.log2 n + 1

/-- `FB0` of R221: the framebuffer's unknown power-on contents, fixed for the run. A free value. -/
opaque Config.fb0 : Nat → Byte

/-- What a byte write would send for an operation and index outside the domain of `Item` (R140: "never
asked"): its data/command level, chip mask and byte. A free value, met only by states before the first
reset. DESIGN CHOICE, log entry 4. -/
opaque Config.strayItem : BitVec 3 → Byte → Mask → Nat → Bool × Mask × Byte

end Sys2Proof
end

