-- ==== Sys2Proof/Machine/State.lean ====
section
/-! DEFINITION. The machine's state as plain data: every register of the block (10_state.md R23 to R28, R32), the
framebuffer, the two driven chips (45_lcd_chip_model.md R170), the host program still to be driven (R81), and
the latch history (R111); and the state right after reset (R220, R171). A Bool field is a one-bit level: true is 1. -/

namespace Sys2Proof.Machine

open Sys2Proof

/-- The values of the 3-bit register `st` (R23), in the order of their codes 0 to 7. -/
inductive SeqState where
  | idle | s1 | s2 | s3 | s4 | s5 | s6
  /-- The code 7, "never reached" (R23); no sequencer rule fires in it (93 U8). -/
  | unused7
  deriving DecidableEq, Repr

/-- A byte memory: its known bytes as (address, byte) pairs, addresses strictly rising. An unlisted address
holds no known value. Used for the framebuffer and for each chip's display memory. -/
abbrev Memory := List Host.Cell

/-- The one known display-on value (R170: "true, or ⊥"). -/
inductive DisplayOn where
  | isOn
  deriving DecidableEq, Repr

/-- The one known display start address (R170: "0, or ⊥"). -/
inductive StartAddr where
  | zero
  deriving DecidableEq, Repr

/-- The reference model of one driven chip (R170); `none` is the rule's `⊥`. -/
structure Chip where
  /-- `page_j` -/
  page : Option (BitVec 2)
  /-- `col_j` -/
  col : Option (BitVec 7)
  /-- `ram_j[p][c]` at address `80 × p + c`; an unlisted address is `⊥`. -/
  ram : Memory
  /-- `on_j` -/
  on : Option DisplayOn
  /-- `start_j` -/
  start : Option StartAddr
  deriving DecidableEq, Repr

/-- Every field `⊥`: a chip at power-on (R171) and after `Havoc` (R170). -/
def Chip.unknown : Chip := { page := none, col := none, ram := [], on := none, start := none }

/-- Chip 1 (right half of the panel) or chip 2 (left half), R2. -/
inductive ChipId where
  | one | two
  deriving DecidableEq, Repr

/-- A latch event `(t, j, dc, d)` (R111). -/
structure LatchEvent where
  time : Nat
  chip : ChipId
  dc : Bool
  byte : Byte
  deriving DecidableEq, Repr

/-- The levels of the block's input ports in one cycle (R20), `clk` apart. -/
structure Inputs where
  rst : Bool
  reqValid : Bool
  reqWord : BitVec 13
  fbEn : Bool
  fbWe : Bool
  fbAddr : BitVec 9
  fbWdata : Byte
  deriving DecidableEq, Repr

/-- One line of the host's program (R79, R81). -/
inductive HostLine where
  /-- Any input levels at all, for one cycle: the way to drive `rst`, or a request and a framebuffer action
  in the same cycle. -/
  | cycle (inp : Inputs)
  /-- A request line: `req_valid = 1` with its word until it is accepted. -/
  | request (w : BitVec 13)
  /-- An `FBW` or `FBR` line: the action word of R74 for one cycle. -/
  | action (w : BitVec 19)
  /-- `WAIT`: cycles until one with `busy = 0`, that one included. -/
  | wait
  /-- `IDLE n`, with `left` idle cycles after the present one: `n = left + 1`. -/
  | idle (left : Nat)
  deriving DecidableEq, Repr

/-- The whole state of the block, the chips and the host. -/
structure State where
  /-- `st` (R23) -/
  st : SeqState
  /-- `cnt` (R23): a counter of `CNT_W` bits, so below `2 ^ CNT_W`. -/
  cnt : Nat
  /-- `cop` (R23) -/
  cop : BitVec 3
  /-- `cval` (R23) -/
  cval : Byte
  /-- `cmsk` (R23) -/
  cmsk : Mask
  /-- `idx` (R23) -/
  idx : BitVec 9
  /-- `d_out` (R24) -/
  dOut : Byte
  /-- `dc_out` (R24) -/
  dcOut : Bool
  /-- `cs1_n` (R24), active low -/
  cs1n : Bool
  /-- `cs2_n` (R24), active low -/
  cs2n : Bool
  /-- `wr_out` (R24) -/
  wrOut : Bool
  /-- `err_op` (R28), sticky -/
  errOp : Bool
  /-- `err_addr` (R28), sticky -/
  errAddr : Bool
  /-- `fb_rdata` (R27) -/
  fbRdata : Byte
  /-- `FB` (R25, R50): the bytes written since power-on. -/
  fb : Memory
  /-- Chip 1 (R170) -/
  chip1 : Chip
  /-- Chip 2 (R170) -/
  chip2 : Chip
  /-- The host program lines not yet finished; the first is being driven now (R81). -/
  host : List HostLine
  /-- The number of the present cycle (R10). History only. -/
  cycle : Nat
  /-- The latch trace, oldest event first (R111). History only. -/
  trace : List LatchEvent
  deriving DecidableEq, Repr

/-- No step of this machine faults: the block "has no trap and raises no exception that changes its course"
(R200), and its two error conditions are flags (R201). Nobody raises a fault. -/
inductive Fault where
  deriving DecidableEq, Repr

/-- Why a step is refused. -/
inductive Refusal where
  /-- Raised by `exec` for an instruction that has no meaning yet; safe. No arm raises it now. -/
  | notModelled (mnemonic : String)
  deriving DecidableEq, Repr

/-- The machine after power-on and reset: the registers as R220 sets them, no framebuffer byte written yet
(R221), both chips unknown (R171), the host driving nothing, cycle 0 and no latch event yet. -/
def State.reset : State where
  st := .idle
  cnt := 0
  cop := 0
  cval := 0x00
  cmsk := 0b00
  idx := 0
  dOut := 0x00
  dcOut := false
  cs1n := true
  cs2n := true
  wrOut := false
  errOp := false
  errAddr := false
  fbRdata := 0x00
  fb := []
  chip1 := Chip.unknown
  chip2 := Chip.unknown
  host := []
  cycle := 0
  trace := []

end Sys2Proof.Machine
end

