-- ==== Sys2Proof/Machine/Ops.lean ====
section
/-! DEFINITION. The shared operations over memory and registers: reading and writing a byte memory, the framebuffer
as the spec reads it, reset, and the clock tick. The block has no exceptions (R200, R204): nothing here saves a
state or redirects it, and the two error flags are set by Flags.lean. -/

namespace Sys2Proof.Machine

open Sys2Proof

/-! ### Byte memories -/

/-- The byte written at an address, if any. -/
def Memory.find? : Memory → Nat → Option Byte
  | [], _ => none
  | (k, b) :: rest, a => if k = a then some b else Memory.find? rest a

/-- The memory with one byte written; the addresses stay strictly rising. -/
def Memory.write : Memory → Nat → Byte → Memory
  | [], a, b => [(a, b)]
  | (k, c) :: rest, a, b =>
    if a < k then (a, b) :: (k, c) :: rest
    else if a = k then (a, b) :: rest
    else (k, c) :: Memory.write rest a b

/-- Addresses strictly rising, from `lo` on and below `bound`. -/
def Memory.wfFrom (lo bound : Nat) : Memory → Bool
  | [] => true
  | (k, _) :: rest => decide (lo ≤ k) && decide (k < bound) && Memory.wfFrom (k + 1) bound rest

/-- The canonical form of a memory of `bound` bytes. -/
def Memory.wf (bound : Nat) (m : Memory) : Bool := Memory.wfFrom 0 bound m

/-! ### The framebuffer -/

/-- `MemRead(a, 1)` (R11, R50): the byte last written at `a`, or its unknown power-on value (R58, R221). -/
def State.readFb (s : State) (a : Nat) : Byte := (s.fb.find? a).getD (Config.fb0 a)

/-- `MemWrite(a, 1, b)` (R11): that byte changes and no other (R55). -/
def State.writeFb (s : State) (a : Nat) (b : Byte) : State := { s with fb := s.fb.write a b }

/-! ### Reset and the clock -/

/-- `ResetState` (R220): every register takes its reset value; the framebuffer, the chips, the host and the
history stay. -/
def State.resetBlock (s : State) : State :=
  { s with
    st := .idle, cnt := 0, cop := 0, cval := 0x00, cmsk := 0b00, idx := 0,
    dOut := 0x00, dcOut := false, cs1n := true, cs2n := true, wrOut := false,
    errOp := false, errAddr := false, fbRdata := 0x00 }

/-- The end of a cycle: the host goes on to `rest` and the next cycle begins (R10). -/
def State.tick (s : State) (rest : List HostLine) : State :=
  { s with host := rest, cycle := s.cycle + 1 }

/-! ### Outcomes -/

/-- The outcome type of this machine. -/
abbrev Result := Host.Outcome State Fault Refusal

/-- Go on from a next state; a fault or a refusal stays. -/
def andThen (r : Result) (f : State → Result) : Result :=
  match r with
  | .next s => f s
  | .fault e => .fault e
  | .refused e => .refused e

/-- The next state, if there is one. -/
def nextState? : Result → Option State
  | .next s => some s
  | .fault _ => none
  | .refused _ => none

end Sys2Proof.Machine
end

