-- ==== Sys2Proof/Machine/Operands.lean ====
section
/-! DEFINITION. Operand assembly (R72), chip masks (R12) and the framebuffer's layout (R50, R51, R56). -/

namespace Sys2Proof.Machine

open Sys2Proof

/-- `0xB8 | value[1:0]`, the byte of `SELPAGE` (R72). -/
def pageByte (v : Byte) : Byte := 0xB8#8 ||| (v &&& 0x03#8)

/-- `value & 0x7F`, the byte of `SELCOL` (R72). -/
def columnByte (v : Byte) : Byte := v &&& 0x7F#8

/-- Whether the mask selects chip 1 (R12). -/
def maskChip1 (m : Mask) : Bool := m.getLsbD 0

/-- Whether the mask selects chip 2 (R12). -/
def maskChip2 (m : Mask) : Bool := m.getLsbD 1

/-- Whether a framebuffer address exists (R50: 0 to 487). -/
def fbInRange (a : BitVec 9) : Bool := decide (a.toNat ≤ 487)

/-- The page of a framebuffer address (R50). -/
def fbPage (a : Nat) : Nat := a / 122

/-- The panel column of a framebuffer address (R50). -/
def fbColumn (a : Nat) : Nat := a % 122

/-- The framebuffer address of a page and a panel column (R50). -/
def fbAddress (page column : Nat) : Nat := 122 * page + column

/-- The chip that shows a panel column (R2, R56). -/
def columnChip (x : Nat) : ChipId := if x ≤ 60 then .two else .one

/-- The chip-local column of a panel column (R56, R132). -/
def chipColumn (x : Nat) : Nat := if x ≤ 60 then x else x - 61

/-- The address of page `p`, column `c` in a chip's display memory of 4 pages of 80 columns (R170). -/
def ramAddress (p c : Nat) : Nat := 80 * p + c

end Sys2Proof.Machine
end

