-- ==== Sys2Proof/Syntax.lean ====
section
/-! DEFINITION. The instructions: one constructor per row of spec/opcode_table.json, in the table's order. Every
bit of a word is kept, the ignored ones too (R72): acceptance stores the raw `value` and `mask` (R103). -/

namespace Sys2Proof

/-- The rows of the opcode table: 8 requests, 3 framebuffer actions, 7 wire words. -/
inductive Instr where
  /-- `WRCMD value, mask` (R115). -/
  | wrcmd (mask : Mask) (value : Byte)
  /-- `WRDATA value, mask` (R116). -/
  | wrdata (mask : Mask) (value : Byte)
  /-- `SELPAGE page` (R130): `mask` and `value[7:2]` are ignored. -/
  | selpage (mask : Mask) (value : Byte)
  /-- `SELCOL column, mask` (R131): `value[7]` is ignored. -/
  | selcol (mask : Mask) (value : Byte)
  /-- `INIT` (R142): both fields are ignored. -/
  | init (mask : Mask) (value : Byte)
  /-- `FLUSH` (R143): both fields are ignored. -/
  | flush (mask : Mask) (value : Byte)
  /-- Reserved opcode 6 (R120): both fields are ignored. -/
  | rsv6 (mask : Mask) (value : Byte)
  /-- Reserved opcode 7 (R120): both fields are ignored. -/
  | rsv7 (mask : Mask) (value : Byte)
  /-- `FBW addr, byte` (R160). -/
  | fbw (addr : BitVec 9) (data : Byte)
  /-- `FBR addr` (R161): the data bits are ignored. -/
  | fbr (addr : BitVec 9) (data : Byte)
  /-- The idle framebuffer port (R162): every bit but `fb_en` is ignored. -/
  | fbnop (we : Bool) (addr : BitVec 9) (data : Byte)
  /-- Display data at a chip (R173). -/
  | data (d : Byte)
  /-- Page select at a chip (R174). -/
  | pageSet (page : BitVec 2)
  /-- Column select at a chip (R175). -/
  | columnSet (col : BitVec 7)
  /-- Software reset at a chip (R176). -/
  | swReset
  /-- Display on at a chip (R177). -/
  | displayOn
  /-- Display start address at a chip (R178). -/
  | startLine
  /-- Any other command byte at a chip (R179). -/
  | otherCmd (d : Byte)
  deriving DecidableEq, Repr

end Sys2Proof
end

