-- ==== Sys2Proof/WellFormed.lean ====
section
/-! DEFINITION. The instruction terms that stand for a word. Field widths are types already; the one check left
is R179's: an "other command" is a command byte that no other row of the table names. -/

namespace Sys2Proof

/-- The command bytes with `d[7] = 1` that R174 and R176 to R178 name. -/
def namedCommand (d : Byte) : Bool :=
  d.extractLsb' 2 6 == 0b101110#6 || d == 0xE2#8 || d == 0xAF#8 || d == 0xC0#8

/-- R179: `d[7] = 1` and `d` is none of the named command bytes. -/
def isOtherCommand (d : Byte) : Bool := d.getLsbD 7 && !namedCommand d

/-- Whether the term stands for a word of its port. -/
def Instr.wf : Instr → Bool
  | .wrcmd _ _ => true
  | .wrdata _ _ => true
  | .selpage _ _ => true
  | .selcol _ _ => true
  | .init _ _ => true
  | .flush _ _ => true
  | .rsv6 _ _ => true
  | .rsv7 _ _ => true
  | .fbw _ _ => true
  | .fbr _ _ => true
  | .fbnop _ _ _ => true
  | .data _ => true
  | .pageSet _ => true
  | .columnSet _ => true
  | .swReset => true
  | .displayOn => true
  | .startLine => true
  | .otherCmd d => isOtherCommand d

end Sys2Proof
end

