-- ==== Sys2Proof/Machine/Chips.lean ====
section
/-! DEFINITION. The reference model of the two driven chips (45_lcd_chip_model.md): what a chip does with a latched
wire word, and the meaning of a wire word as an instruction: every chip whose select is low takes it (R172, R180). -/

namespace Sys2Proof.Machine

open Sys2Proof

/-- A data byte (R173): stored at the active page and column, and the column advances; with either unknown,
or a column past 79, the chip's memory and column become unknown. -/
def Chip.takeData (d : Byte) (c : Chip) : Chip :=
  match c.page, c.col with
  | some p, some k =>
    if k.toNat ≤ 79 then { c with ram := c.ram.write (ramAddress p.toNat k.toNat) d, col := some (k + 1) }
    else { c with ram := [], col := none }
  | _, _ => { c with ram := [], col := none }

/-- Page select (R174). -/
def Chip.selectPage (p : BitVec 2) (c : Chip) : Chip := { c with page := some p }

/-- Column select (R175); 80 to 127 are recorded as given. -/
def Chip.selectColumn (k : BitVec 7) (c : Chip) : Chip := { c with col := some k }

/-- `Havoc_j` (R170): every field `⊥`. -/
def Chip.havoc (_c : Chip) : Chip := Chip.unknown

/-- Display on (R177). -/
def Chip.displayOn (c : Chip) : Chip := { c with on := some .isOn }

/-- Display start address (R178). -/
def Chip.startAddress (c : Chip) : Chip := { c with start := some .zero }

/-- Every chip whose select line is low takes the word; the two are independent (R172, R180). -/
def State.atSelectedChips (s : State) (f : Chip → Chip) : State :=
  { s with
    chip1 := if s.cs1n then s.chip1 else f s.chip1
    chip2 := if s.cs2n then s.chip2 else f s.chip2 }

/-- Display data (R173). -/
def execData (d : Byte) (s : State) : Result := .next (s.atSelectedChips (Chip.takeData d))

/-- Page select (R174). -/
def execPageSet (p : BitVec 2) (s : State) : Result := .next (s.atSelectedChips (Chip.selectPage p))

/-- Column select (R175). -/
def execColumnSet (k : BitVec 7) (s : State) : Result := .next (s.atSelectedChips (Chip.selectColumn k))

/-- Software reset (R176): nothing is known of the chip after it. -/
def execSwReset (s : State) : Result := .next (s.atSelectedChips Chip.havoc)

/-- Display on (R177). -/
def execDisplayOn (s : State) : Result := .next (s.atSelectedChips Chip.displayOn)

/-- Display start address (R178). -/
def execStartLine (s : State) : Result := .next (s.atSelectedChips Chip.startAddress)

/-- Any other command byte (R179): nothing is known of the chip after it. -/
def execOtherCmd (_d : Byte) (s : State) : Result := .next (s.atSelectedChips Chip.havoc)

/-- The byte a chip holds at page `p`, column `c`, if known. -/
def Chip.ramAt (c : Chip) (p k : Nat) : Option Byte := c.ram.find? (ramAddress p k)

end Sys2Proof.Machine
end

