-- ==== Sys2Proof/Machine/Flags.lean ====
section
/-! DEFINITION. The flags: the two sticky error flags (R28, R201), and `busy` and `req_ready` (R30). The block has
no condition codes (R28). -/

namespace Sys2Proof.Machine

open Sys2Proof

/-- `raise ErrOp` (R11, R201): sets the sticky flag and changes nothing else. -/
def State.raiseErrOp (s : State) : State := { s with errOp := true }

/-- `raise ErrAddr` (R11, R201): sets the sticky flag and changes nothing else. -/
def State.raiseErrAddr (s : State) : State := { s with errAddr := true }

/-- `busy` (R30). -/
def State.busy (s : State) : Bool := s.st != .idle

/-- `req_ready` (R30), which also depends on the level of `rst` in the same cycle. -/
def State.reqReady (s : State) (inp : Inputs) : Bool := s.st == .idle && !inp.rst

end Sys2Proof.Machine
end

