-- ==== Sys2Proof/Machine/FramebufferPort.lean ====
section
/-! DEFINITION. The three framebuffer port actions of 43_framebuffer_port.md. -/

namespace Sys2Proof.Machine

open Sys2Proof

/-- `FBW addr, byte` (R160): writes the byte, or sets `err_addr` when the address does not exist. -/
def execFbw (a : BitVec 9) (b : Byte) (s : State) : Result :=
  if fbInRange a then .next (s.writeFb a.toNat b) else .next s.raiseErrAddr

/-- `FBR addr` (R161): the byte read appears on `fb_rdata`; an address that does not exist reads 0x00 and sets
`err_addr`. -/
def execFbr (a : BitVec 9) (_b : Byte) (s : State) : Result :=
  if fbInRange a then .next { s with fbRdata := s.readFb a.toNat }
  else .next { s.raiseErrAddr with fbRdata := 0x00 }

/-- The idle port (R162): `fb_en = 0` leaves everything unchanged. -/
def execFbnop (_we : Bool) (_a : BitVec 9) (_b : Byte) (s : State) : Result := .next s

end Sys2Proof.Machine
end

