-- ==== Sys2Proof/Machine/Sequences.lean ====
section
/-! DEFINITION. The items of an operation: `Item` (R140) and `Count` (R141), and the place of a framebuffer byte in
a FLUSH (R145). -/

namespace Sys2Proof.Machine

open Sys2Proof

/-- The source of an item's byte (R140). -/
inductive Src where
  /-- `Imm(b)`: the byte `b`. -/
  | imm (b : Byte)
  /-- `Fb(a)`: the framebuffer byte at `a`, read when the item starts. -/
  | fb (a : Nat)
  deriving DecidableEq, Repr

/-- One byte write `(k, mk, src)` of an operation (R140). -/
structure Item where
  /-- `k`: 1 for data, 0 for a command. -/
  dc : Bool
  /-- `mk`: the chips that latch the byte. -/
  mask : Mask
  /-- `src`: where the byte comes from. -/
  src : Src
  deriving DecidableEq, Repr

/-- `Count(op)` (R141); the reserved opcodes have no item (R71). -/
def itemCount (op : BitVec 3) : Nat :=
  match op with
  | 0#3 => 1
  | 1#3 => 1
  | 2#3 => 1
  | 3#3 => 1
  | 4#3 => 4
  | 5#3 => 500
  | 6#3 => 0
  | 7#3 => 0

/-- `Item(4, ·, ·, i)`: the bytes of INIT (R140, R142). -/
def initItem (i : Nat) : Item :=
  match i with
  | 0 => ⟨false, Mask.both, .imm 0xE2⟩
  | 1 => ⟨false, Mask.both, .imm 0xAF⟩
  | 2 => ⟨false, Mask.both, .imm 0xC0⟩
  | _ => ⟨false, Mask.both, .imm (pageByte 3)⟩

/-- `Item(5, ·, ·, 125 r + k)`: item `k` of page `r` of FLUSH (R140). -/
def flushPageItem (r k : Nat) : Item :=
  if k = 0 then ⟨false, Mask.both, .imm (pageByte (BitVec.ofNat 8 r))⟩
  else if k = 1 then ⟨false, Mask.chip2, .imm 0x00⟩
  else if k ≤ 62 then ⟨true, Mask.chip2, .fb (122 * r + (k - 2))⟩
  else if k = 63 then ⟨false, Mask.chip1, .imm 0x00⟩
  else ⟨true, Mask.chip1, .fb (122 * r + 61 + (k - 64))⟩

/-- `Item(5, ·, ·, i)` (R140). -/
def flushItem (i : Nat) : Item := flushPageItem (i / 125) (i % 125)

/-- Outside the domain of `Item`: a free value (log entry 4). -/
def strayItemOf (op : BitVec 3) (v : Byte) (m : Mask) (i : Nat) : Item :=
  let f := Config.strayItem op v m i
  ⟨f.1, f.2.1, .imm f.2.2⟩

/-- `Item(op, v, m, i)` for `i < Count(op)` (R140). -/
def properItem (op : BitVec 3) (v : Byte) (m : Mask) (i : Nat) : Item :=
  match op with
  | 0#3 => ⟨false, m, .imm v⟩
  | 1#3 => ⟨true, m, .imm v⟩
  | 2#3 => ⟨false, Mask.both, .imm (pageByte v)⟩
  | 3#3 => ⟨false, m, .imm (columnByte v)⟩
  | 4#3 => initItem i
  | 5#3 => flushItem i
  | 6#3 => strayItemOf op v m i
  | 7#3 => strayItemOf op v m i

/-- `Item(op, v, m, i)` (R140): the i-th byte write of an operation. -/
def item (op : BitVec 3) (v : Byte) (m : Mask) (i : Nat) : Item :=
  if i < itemCount op then properItem op v m i else strayItemOf op v m i

/-- `i(a)` (R145): the index of the FLUSH item that sends framebuffer byte `a`. -/
def flushIndex (a : Nat) : Nat :=
  if fbColumn a ≤ 60 then 125 * fbPage a + 2 + fbColumn a
  else 125 * fbPage a + 64 + (fbColumn a - 61)

/-- The byte an item puts on the bus (R102): its immediate, or the framebuffer byte as it stands. -/
def State.sourceByte (s : State) : Src → Byte
  | .imm b => b
  | .fb a => s.readFb a

end Sys2Proof.Machine
end

