-- ==== Sys2Proof/Machine/Sequencer.lean ====
section
/-! DEFINITION. The byte-write state machine of 40_byte_write.md: entering an item (R102) and the six states S1 to
S6 (R104 to R109). `n` is the settle delay in cycles, `N_SETTLE`. -/

namespace Sys2Proof.Machine

open Sys2Proof

/-- The item in progress: `Item(cop, cval, cmsk, idx)`. -/
def State.item (s : State) : Item := Sys2Proof.Machine.item s.cop s.cval s.cmsk s.idx.toNat

/-- `EnterItem` (R102): the item's byte goes on the data bus and `S1` begins; the control lines keep their
levels. The byte is read from the framebuffer of `s`. -/
def State.enterItem (s : State) (op : BitVec 3) (v : Byte) (m : Mask) (i : Nat) : State :=
  { s with dOut := s.sourceByte (Sys2Proof.Machine.item op v m i).src, st := .s1 }

/-- The part of acceptance (R103) that stores the request. -/
def State.storeRequest (s : State) (op : BitVec 3) (m : Mask) (v : Byte) : State :=
  { s with cop := op, cval := v, cmsk := m, idx := 0 }

/-- S1 to S2 (R104): the control lines take the item's levels, the strobe is low. -/
def State.seqS1 (s : State) : State :=
  { s with
    dcOut := s.item.dc
    cs1n := !maskChip1 s.item.mask
    cs2n := !maskChip2 s.item.mask
    wrOut := false
    st := .s2 }

/-- The latch events of a rising strobe in cycle `s` (R105, R111): chip 1 first, then chip 2. -/
def State.latchEvents (s : State) : List LatchEvent :=
  (if s.cs1n then [] else [⟨s.cycle, .one, s.dcOut, s.dOut⟩]) ++
  (if s.cs2n then [] else [⟨s.cycle, .two, s.dcOut, s.dOut⟩])

/-- S2 to S3 (R105): the strobe rises and every selected chip's latch event is emitted. -/
def State.seqS2 (s : State) : State :=
  { s with wrOut := true, st := .s3, trace := s.trace ++ s.latchEvents }

/-- S3 to S4 (R106): load the settle counter. -/
def State.seqS3 (n : Nat) (s : State) : State := { s with cnt := n, st := .s4 }

/-- `cnt - 1` on a register of `CNT_W` bits; only a state no run reaches has `cnt = 0` here (log entry 8). -/
def countDown (n c : Nat) : Nat := if c = 0 then 2 ^ Config.cntWidth n - 1 else c - 1

/-- S4 (R107): the first settle delay; at its end the strobe goes low. -/
def State.seqS4 (n : Nat) (s : State) : State :=
  if s.cnt = 1 then { s with cnt := 0, wrOut := false, st := .s5 }
  else { s with cnt := countDown n s.cnt }

/-- S5 to S6 (R108): load the settle counter. -/
def State.seqS5 (n : Nat) (s : State) : State := { s with cnt := n, st := .s6 }

/-- The end of `S6` (R109): the next item begins, or the operation ends. -/
def State.nextItem (s : State) : State :=
  if s.idx.toNat + 1 < itemCount s.cop then
    { s.enterItem s.cop s.cval s.cmsk (s.idx.toNat + 1) with cnt := 0, idx := s.idx + 1 }
  else { s with cnt := 0, st := .idle }

/-- S6 (R109): the second settle delay. -/
def State.seqS6 (n : Nat) (s : State) : State :=
  if s.cnt = 1 then s.nextItem else { s with cnt := countDown n s.cnt }

/-- The sequencer's step outside `IDLE` (R104 to R109); in the unused state 7 no rule fires (93 U8). -/
def State.seqBusy (n : Nat) (s : State) : State :=
  match s.st with
  | .idle => s
  | .s1 => s.seqS1
  | .s2 => s.seqS2
  | .s3 => s.seqS3 n
  | .s4 => s.seqS4 n
  | .s5 => s.seqS5 n
  | .s6 => s.seqS6 n
  | .unused7 => s

end Sys2Proof.Machine
end

