-- ==== Sys2Proof/Machine/Requests.lean ====
section
/-! DEFINITION. The eight requests. A request's own edge is its acceptance in `IDLE` (R103): the operation's first
byte goes on the bus and `S1` begins; the sequencer does the rest (R104 to R109). Outside `IDLE` a request is
not accepted and not recorded (R30, R114): nothing changes and it waits with the host. -/

namespace Sys2Proof.Machine

open Sys2Proof

/-- Acceptance of an operation, opcodes 0 to 5 (R103). -/
def acceptOperation (op : BitVec 3) (m : Mask) (v : Byte) (s : State) : Result :=
  if s.st = .idle then .next ((s.storeRequest op m v).enterItem op v m 0) else .next s

/-- Acceptance of a reserved request, opcodes 6 and 7 (R103, R120): the flag, and nothing else. -/
def acceptReserved (s : State) : Result :=
  if s.st = .idle then .next s.raiseErrOp else .next s

/-- `WRCMD value, mask` (R115). -/
def execWrcmd (m : Mask) (v : Byte) (s : State) : Result := acceptOperation 0 m v s

/-- `WRDATA value, mask` (R116). -/
def execWrdata (m : Mask) (v : Byte) (s : State) : Result := acceptOperation 1 m v s

/-- `SELPAGE page` (R130). -/
def execSelpage (m : Mask) (v : Byte) (s : State) : Result := acceptOperation 2 m v s

/-- `SELCOL column, mask` (R131). -/
def execSelcol (m : Mask) (v : Byte) (s : State) : Result := acceptOperation 3 m v s

/-- `INIT` (R142). -/
def execInit (m : Mask) (v : Byte) (s : State) : Result := acceptOperation 4 m v s

/-- `FLUSH` (R143). -/
def execFlush (m : Mask) (v : Byte) (s : State) : Result := acceptOperation 5 m v s

/-- Reserved opcode 6 (R120). -/
def execRsv6 (_m : Mask) (_v : Byte) (s : State) : Result := acceptReserved s

/-- Reserved opcode 7 (R120). -/
def execRsv7 (_m : Mask) (_v : Byte) (s : State) : Result := acceptReserved s

end Sys2Proof.Machine
end

