-- ==== Sys2Proof/Machine/Dispatch.lean ====
section
/-! DEFINITION. One arm per row of the opcode table, each one call of its meaning. -/

namespace Sys2Proof.Machine

open Sys2Proof

def exec (i : Instr) (s : State) : Host.Outcome State Fault Refusal :=
  match i with
  | .wrcmd m v => Sys2Proof.Machine.execWrcmd m v s
  | .wrdata m v => Sys2Proof.Machine.execWrdata m v s
  | .selpage m v => Sys2Proof.Machine.execSelpage m v s
  | .selcol m v => Sys2Proof.Machine.execSelcol m v s
  | .init m v => Sys2Proof.Machine.execInit m v s
  | .flush m v => Sys2Proof.Machine.execFlush m v s
  | .rsv6 m v => Sys2Proof.Machine.execRsv6 m v s
  | .rsv7 m v => Sys2Proof.Machine.execRsv7 m v s
  | .fbw a b => Sys2Proof.Machine.execFbw a b s
  | .fbr a b => Sys2Proof.Machine.execFbr a b s
  | .fbnop we a b => Sys2Proof.Machine.execFbnop we a b s
  | .data d => Sys2Proof.Machine.execData d s
  | .pageSet p => Sys2Proof.Machine.execPageSet p s
  | .columnSet k => Sys2Proof.Machine.execColumnSet k s
  | .swReset => Sys2Proof.Machine.execSwReset s
  | .displayOn => Sys2Proof.Machine.execDisplayOn s
  | .startLine => Sys2Proof.Machine.execStartLine s
  | .otherCmd d => Sys2Proof.Machine.execOtherCmd d s

end Sys2Proof.Machine
end

