-- ==== Sys2Proof/Decode.lean ====
section
/-! DEFINITION. The decoder of the three encodings (R70 to R76), the encoder, and the host's numbered words.
Decoding a word of a port is total (R73); only a number that fits no port's width is rejected, by name. -/

namespace Sys2Proof

/-- `op` = bits 12:10 of a request (R70). -/
def requestOp (w : BitVec 13) : BitVec 3 := w.extractLsb' 10 3
/-- `mask` = bits 9:8 of a request (R70). -/
def requestMask (w : BitVec 13) : Mask := w.extractLsb' 8 2
/-- `value` = bits 7:0 of a request (R70). -/
def requestValue (w : BitVec 13) : Byte := w.extractLsb' 0 8

/-- R71, R73: the row of a request word, determined by `op` alone. -/
def decodeRequest (w : BitVec 13) : Instr :=
  match requestOp w with
  | 0#3 => .wrcmd (requestMask w) (requestValue w)
  | 1#3 => .wrdata (requestMask w) (requestValue w)
  | 2#3 => .selpage (requestMask w) (requestValue w)
  | 3#3 => .selcol (requestMask w) (requestValue w)
  | 4#3 => .init (requestMask w) (requestValue w)
  | 5#3 => .flush (requestMask w) (requestValue w)
  | 6#3 => .rsv6 (requestMask w) (requestValue w)
  | 7#3 => .rsv7 (requestMask w) (requestValue w)

/-- `fb_en` = bit 18 of an action word (R74). -/
def actionEn (w : BitVec 19) : Bool := w.getLsbD 18
/-- `fb_we` = bit 17 of an action word (R74). -/
def actionWe (w : BitVec 19) : Bool := w.getLsbD 17
/-- `fb_addr` = bits 16:8 of an action word (R74). -/
def actionAddr (w : BitVec 19) : BitVec 9 := w.extractLsb' 8 9
/-- `fb_wdata` = bits 7:0 of an action word (R74). -/
def actionData (w : BitVec 19) : Byte := w.extractLsb' 0 8

/-- R74's table of framebuffer actions. -/
def decodeAction (w : BitVec 19) : Instr :=
  match actionEn w, actionWe w with
  | true, true => .fbw (actionAddr w) (actionData w)
  | true, false => .fbr (actionAddr w) (actionData w)
  | false, we => .fbnop we (actionAddr w) (actionData w)

/-- `dc` = bit 8 of a wire word (R75). -/
def wireDc (w : BitVec 9) : Bool := w.getLsbD 8
/-- `d` = bits 7:0 of a wire word (R75). -/
def wireByte (w : BitVec 9) : Byte := w.extractLsb' 0 8

/-- The command a chip reads in a byte sent with `dc = 0` (R76, R174 to R179). -/
def decodeCommand (d : Byte) : Instr :=
  if d.extractLsb' 2 6 = 0b101110#6 then .pageSet (d.extractLsb' 0 2)
  else if d.getLsbD 7 = false then .columnSet (d.extractLsb' 0 7)
  else if d = 0xE2#8 then .swReset
  else if d = 0xAF#8 then .displayOn
  else if d = 0xC0#8 then .startLine
  else .otherCmd d

/-- R75: `dc = 1` marks display data, `dc = 0` a command. -/
def decodeWire (w : BitVec 9) : Instr :=
  if wireDc w then .data (wireByte w) else decodeCommand (wireByte w)

/-- The decoder: a port's word to its instruction. -/
def decode : PortWord → Instr
  | .request w => decodeRequest w
  | .action w => decodeAction w
  | .wire w => decodeWire w

/-! ### The encoder -/

/-- `{op, mask, value}` (R70). -/
def requestWord (op : BitVec 3) (m : Mask) (v : Byte) : BitVec 13 := op ++ m ++ v

/-- `{fb_en, fb_we, fb_addr, fb_wdata}` (R74). -/
def actionWordOf (en we : Bool) (a : BitVec 9) (b : Byte) : BitVec 19 :=
  BitVec.ofBool en ++ BitVec.ofBool we ++ a ++ b

/-- `{dc, d}` (R75). -/
def wireWordOf (dc : Bool) (d : Byte) : BitVec 9 := BitVec.ofBool dc ++ d

/-- The word of an instruction, on the port it belongs to. -/
def encode : Instr → PortWord
  | .wrcmd m v => .request (requestWord 0 m v)
  | .wrdata m v => .request (requestWord 1 m v)
  | .selpage m v => .request (requestWord 2 m v)
  | .selcol m v => .request (requestWord 3 m v)
  | .init m v => .request (requestWord 4 m v)
  | .flush m v => .request (requestWord 5 m v)
  | .rsv6 m v => .request (requestWord 6 m v)
  | .rsv7 m v => .request (requestWord 7 m v)
  | .fbw a b => .action (actionWordOf true true a b)
  | .fbr a b => .action (actionWordOf true false a b)
  | .fbnop we a b => .action (actionWordOf false we a b)
  | .data d => .wire (wireWordOf true d)
  | .pageSet p => .wire (wireWordOf false (0b101110#6 ++ p))
  | .columnSet c => .wire (wireWordOf false (0b0#1 ++ c))
  | .swReset => .wire (wireWordOf false 0xE2)
  | .displayOn => .wire (wireWordOf false 0xAF)
  | .startLine => .wire (wireWordOf false 0xC0)
  | .otherCmd d => .wire (wireWordOf false d)

/-! ### Numbered words of the opcode table -/

/-- Why a number is no word of any port. -/
inductive DecodeReject where
  /-- The number has a bit set above the widest format its length allows. -/
  | wordTooWide
  deriving DecidableEq, Repr

/-- Which port's word a number of `nbits` bits is. 13-bit requests and 9-bit wire words both fill two bytes
in the opcode table, so in a 16-bit word a number below 0x200 is read as a wire word and a larger one as a
request (DESIGN CHOICE, log entry 7: the table's numbering cannot tell `WRCMD` with mask `none` or `chip1`
from a wire word). -/
def tablePortWord (nbits w : Nat) : Except DecodeReject PortWord :=
  if nbits ≤ 9 then
    if w < 2 ^ 9 then .ok (.wire (BitVec.ofNat 9 w)) else .error .wordTooWide
  else if nbits ≤ 13 then
    if w < 2 ^ 13 then .ok (.request (BitVec.ofNat 13 w)) else .error .wordTooWide
  else if nbits ≤ 16 then
    if w < 2 ^ 9 then .ok (.wire (BitVec.ofNat 9 w))
    else if w < 2 ^ 13 then .ok (.request (BitVec.ofNat 13 w)) else .error .wordTooWide
  else
    if w < 2 ^ 19 then .ok (.action (BitVec.ofNat 19 w)) else .error .wordTooWide

/-- The instruction the decoder reads from the table's word `w` of `nbits` bits. -/
def decodeTableWord (nbits w : Nat) : Option Instr :=
  match tablePortWord nbits w with
  | .ok p => some (decode p)
  | .error _ => none

end Sys2Proof
end

