-- ==== Sys2Proof/Machine/Ports.lean ====
section
/-! DEFINITION. The block's ports (R20) and the host that drives the inputs line by line (R81). -/

namespace Sys2Proof.Machine

open Sys2Proof

/-- The input levels of a cycle in which the host does nothing (R81: `req_valid = 0` and `fb_en = 0`). -/
def Inputs.quiet : Inputs :=
  { rst := false, reqValid := false, reqWord := 0, fbEn := false, fbWe := false, fbAddr := 0, fbWdata := 0 }

/-- The action word `{fb_en, fb_we, fb_addr, fb_wdata}` of a cycle's input levels (R74). -/
def Inputs.actionWord (inp : Inputs) : BitVec 19 :=
  actionWordOf inp.fbEn inp.fbWe inp.fbAddr inp.fbWdata

/-- The input levels that drive a request word (R20, R70). -/
def Inputs.ofRequest (w : BitVec 13) : Inputs := { Inputs.quiet with reqValid := true, reqWord := w }

/-- The input levels that drive an action word (R20, R74). -/
def Inputs.ofAction (w : BitVec 19) : Inputs :=
  { Inputs.quiet with fbEn := actionEn w, fbWe := actionWe w, fbAddr := actionAddr w, fbWdata := actionData w }

/-- The input levels a line drives in every cycle it occupies (R81). -/
def HostLine.drive : HostLine → Inputs
  | .cycle inp => inp
  | .request w => Inputs.ofRequest w
  | .action w => Inputs.ofAction w
  | .wait => Inputs.quiet
  | .idle _ => Inputs.quiet

/-- The levels of the input ports in the present cycle. -/
def State.inputs (s : State) : Inputs :=
  match s.host with
  | [] => Inputs.quiet
  | line :: _ => line.drive

/-- What is left of the host's program after the present cycle (R81): a request line stays until
`req_ready = 1`, a `WAIT` line until `busy = 0`, an `IDLE` line for its number of cycles; every other line
takes one cycle. -/
def State.hostAfter (s : State) : List HostLine :=
  match s.host with
  | [] => []
  | .cycle _ :: rest => rest
  | .request w :: rest => if s.reqReady (Inputs.ofRequest w) then rest else .request w :: rest
  | .action _ :: rest => rest
  | .wait :: rest => if s.busy then .wait :: rest else rest
  | .idle left :: rest => match left with
    | 0 => rest
    | left + 1 => .idle left :: rest

/-- The levels of the block's output ports in one cycle (R20). -/
structure Outputs where
  reqReady : Bool
  busy : Bool
  errOp : Bool
  errAddr : Bool
  fbRdata : Byte
  lcdD : Byte
  lcdDc : Bool
  lcdCs1n : Bool
  lcdCs2n : Bool
  lcdWr : Bool
  deriving DecidableEq, Repr

/-- The output ports (R20): each `lcd_*` port is its register of R24, and `busy` and `req_ready` are
combinational (R30). -/
def State.outputs (s : State) : Outputs :=
  { reqReady := s.reqReady s.inputs
    busy := s.busy
    errOp := s.errOp
    errAddr := s.errAddr
    fbRdata := s.fbRdata
    lcdD := s.dOut
    lcdDc := s.dcOut
    lcdCs1n := s.cs1n
    lcdCs2n := s.cs2n
    lcdWr := s.wrOut }

/-- A host program has ended (R81): no line is left and the block is not busy. -/
def State.programEnded (s : State) : Bool := s.host.isEmpty && !s.busy

end Sys2Proof.Machine
end

