-- ==== Sys2Proof/Machine/Cycle.lean ====
section
/-! DEFINITION. One clock cycle (R100): the chips' side of a rising strobe (R172), the sequencer (R103 to R109), the
framebuffer port (R160 to R162), and the host's next line (R81), for a settle delay of `n` cycles. -/

namespace Sys2Proof.Machine

open Sys2Proof

/-- The wire word on the pins, `{lcd_dc, lcd_d}` (R75). -/
def State.wireWord (s : State) : BitVec 9 := wireWordOf s.dcOut s.dOut

/-- Whether the strobe rises at the edge that ends this cycle (R172): it is low, and the only rule that
raises it is S2's (R105). -/
def State.strobeRises (s : State) : Bool := s.st == .s2 && !s.wrOut

/-- At a rising strobe the selected chips run the wire word on the pins (R172). -/
def State.chipEdge (s : State) : Result :=
  if s.strobeRises then exec (decode (.wire s.wireWord)) s else .next s

/-- `Seq` (R100): in `IDLE`, the offered request if there is one (R103); else the sequencer's state. -/
def State.seqEdge (n : Nat) (inp : Inputs) (s : State) : Result :=
  if s.st = .idle then
    if inp.reqValid then exec (decode (.request inp.reqWord)) s else .next s
  else .next (s.seqBusy n)

/-- `FbPort` (R100): the cycle's framebuffer action. -/
def State.fbEdge (inp : Inputs) (s : State) : Result := exec (decode (.action inp.actionWord)) s

/-- `Step(s, in)` (R100) with the inputs the host drives in this cycle. A reset overrides everything (R202).
Else the chips, the sequencer and the framebuffer port act at the same edge; the sequencer reads the
framebuffer before the port writes it, so it sees the bytes of this cycle (R57). -/
def cycleStep (n : Nat) (s : State) : Result :=
  if s.inputs.rst then .next (s.resetBlock.tick s.hostAfter)
  else
    andThen s.chipEdge fun s₁ =>
    andThen (s₁.seqEdge n s.inputs) fun s₂ =>
    andThen (s₂.fbEdge s.inputs) fun s₃ =>
    .next (s₃.tick s.hostAfter)

/-- `s` with the word of a port placed where the next step takes it: a request or an action as the host's
next line (a request is taken in `IDLE` only), a wire word on the pins in `S2` with both chips selected and
the strobe low, in a cycle in which the host drives nothing. -/
def State.placeWord (s : State) : PortWord → State
  | .request w => { s with st := .idle, host := .request w :: s.host }
  | .action w => { s with host := .action w :: s.host }
  | .wire w =>
    { s with
      st := .s2, wrOut := false, cs1n := false, cs2n := false,
      dcOut := wireDc w, dOut := wireByte w, host := .idle 0 :: s.host }

end Sys2Proof.Machine
end

