-- ==== Sys2Proof/Machine/Step.lean ====
section
/-! DEFINITION. The step of the machine: one clock cycle at the block's own `N_SETTLE`, and the placing of one
numbered word of the opcode table where the next step takes it. -/

namespace Sys2Proof.Machine

open Sys2Proof

/-- One clock cycle (R100). -/
def step (s : State) : Host.Outcome State Fault Refusal := cycleStep Config.nSettle s

/-- `s` with the table's word `w` of `nbits` bits placed where the next step runs it; `s` itself when the
number is no word of any port. -/
def State.withFetchWord (s : State) (nbits w : Nat) : State :=
  match tablePortWord nbits w with
  | .ok p => s.placeWord p
  | .error _ => s

end Sys2Proof.Machine
end

