-- ==== Sys2Proof/Machine/Assembler.lean ====
section
/-! DEFINITION. The assembler lines of R79 as abstract syntax, the ranges the assembler accepts, the host line each
one encodes, and the pseudo-instructions of R80. They only name words: they add no behaviour (D22). -/

namespace Sys2Proof.Machine

open Sys2Proof

/-- A line of the assembler (R79). -/
inductive AsmLine where
  | wrcmd (byte : Byte) (mask : Mask)
  | wrdata (byte : Byte) (mask : Mask)
  | selpage (page : Nat)
  | selcol (col : Nat) (mask : Mask)
  | init
  | flush
  | req (word : BitVec 13)
  | fbw (addr : Nat) (byte : Byte)
  | fbr (addr : Nat)
  | wait
  | idle (n : Nat)
  deriving DecidableEq, Repr

/-- The host line an assembler line encodes (R79), or nothing where the assembler does not accept it. -/
def AsmLine.assemble : AsmLine → Option HostLine
  | .wrcmd b m => some (.request (requestWord 0 m b))
  | .wrdata b m => some (.request (requestWord 1 m b))
  | .selpage p => if p ≤ 3 then some (.request (requestWord 2 0b00 (BitVec.ofNat 8 p))) else none
  | .selcol c m => if c ≤ 127 then some (.request (requestWord 3 m (BitVec.ofNat 8 c))) else none
  | .init => some (.request (requestWord 4 0b00 0x00))
  | .flush => some (.request (requestWord 5 0b00 0x00))
  | .req w => some (.request w)
  | .fbw a b => if a ≤ 511 then some (.action (actionWordOf true true (BitVec.ofNat 9 a) b)) else none
  | .fbr a => if a ≤ 511 then some (.action (actionWordOf true false (BitVec.ofNat 9 a) 0x00)) else none
  | .wait => some .wait
  | .idle n => match n with
    | 0 => none
    | n + 1 => some (.idle n)

/-- The pseudo-instructions (R80). -/
inductive Pseudo where
  | swreset | dispon | startline0
  | fbfill (byte : Byte)
  | clear
  deriving DecidableEq, Repr

/-- `FBW a, byte` for `a = 0, …, 487`, in that order (R80). -/
def fillLines (b : Byte) : List AsmLine := (List.range 488).map fun a => .fbw a b

/-- The expansion of a pseudo-instruction (R80). -/
def Pseudo.expand : Pseudo → List AsmLine
  | .swreset => [.wrcmd 0xE2 Mask.both]
  | .dispon => [.wrcmd 0xAF Mask.both]
  | .startline0 => [.wrcmd 0xC0 Mask.both]
  | .fbfill b => fillLines b
  | .clear => fillLines 0x00

/-- A program assembled, or nothing if a line is not accepted. -/
def assembleAll : List AsmLine → Option (List HostLine)
  | [] => some []
  | line :: rest =>
    match line.assemble, assembleAll rest with
    | some l, some ls => some (l :: ls)
    | _, _ => none

end Sys2Proof.Machine
end

