-- ==== Sys2Proof/Machine/Panel.lean ====
section
/-! DEFINITION. The panel as the framebuffer describes it (R51) and as the chips show it (R181). -/

namespace Sys2Proof.Machine

open Sys2Proof

/-- The pixel at panel column `x`, row `y` of the framebuffer: bit `y mod 8` of `FB[122 (y div 8) + x]` (R51). -/
def State.fbPixel (s : State) (x y : Nat) : Bool := (s.readFb (fbAddress (y / 8) x)).getLsbD (y % 8)

/-- The chip that shows panel column `x` (R181). -/
def State.panelChip (s : State) (x : Nat) : Chip :=
  match columnChip x with
  | .one => s.chip1
  | .two => s.chip2

/-- The panel view (R181): whether the pixel is lit, or `none` when it is unknown: the chip's byte is, or the
display is not known to be on with start line 0. The identity mapping to the glass is the spec's assumption
(93 U5). -/
def State.panelPixel (s : State) (x y : Nat) : Option Bool :=
  let c := s.panelChip x
  match c.on, c.start, c.ramAt (y / 8) (chipColumn x) with
  | some .isOn, some .zero, some b => some (b.getLsbD (y % 8))
  | _, _, _ => none

end Sys2Proof.Machine
end

