-- ==== Sys2Proof/Safety.lean ====
section
/-! DEFINITION. What the statements speak of: runs, hosts that do not reset, the invariant of the states a run
reaches, the spacing of latch edges, and the chips as the replay of the latch trace. -/

namespace Sys2Proof.Machine

open Sys2Proof

/-- `k` clock cycles of the machine. -/
def runFor (k : Nat) (s : State) : Result := Host.Core.run Sys2Proof.core k s

/-- The sequencer is inside a byte write, past the edge that sets the control lines (R104). -/
@[simp] def SeqState.controlsDriven : SeqState → Bool
  | .s2 | .s3 | .s4 | .s5 | .s6 => true
  | .idle | .s1 | .unused7 => false

/-- The sequencer is in a settle delay (R101: `S4` and `S6`). -/
@[simp] def SeqState.settling : SeqState → Bool
  | .s4 | .s6 => true
  | .idle | .s1 | .s2 | .s3 | .s5 | .unused7 => false

/-- The strobe is high in `S3` and `S4` only (R78). -/
@[simp] def SeqState.strobeHigh : SeqState → Bool
  | .s3 | .s4 => true
  | .idle | .s1 | .s2 | .s5 | .s6 | .unused7 => false

/-- The invariant of every state from the first reset on (R23, R26, R78). -/
structure State.Inv (s : State) : Prop where
  /-- `st = 7` is never reached (R23). -/
  stKnown : s.st ≠ .unused7
  /-- `cop` is an opcode 0 to 5 and `idx` one of its items (R23, R26, R141). -/
  idxInRange : s.idx.toNat < itemCount s.cop
  /-- In a settle delay the counter runs from `N_SETTLE` to 1 (R107, R109). -/
  cntSettling : s.st.settling = true → 1 ≤ s.cnt ∧ s.cnt ≤ Config.nSettle
  /-- Elsewhere it is 0. -/
  cntElse : s.st.settling = false → s.cnt = 0
  /-- The strobe level of each state (R78). -/
  strobe : s.wrOut = s.st.strobeHigh
  /-- The control lines carry the item's levels from `S2` to the end of `S6` (R78). -/
  controls : s.st.controlsDriven = true →
    s.dcOut = s.item.dc ∧ s.cs1n = !maskChip1 s.item.mask ∧ s.cs2n = !maskChip2 s.item.mask
  /-- An item's immediate byte is on the data bus from `S1` to the end of `S6` (R78). -/
  dataByte : s.st ≠ .idle → ∀ b, s.item.src = .imm b → s.dOut = b
  /-- The framebuffer is in canonical form, with no address past 487 (R50). -/
  fbWf : s.fb.wf 488 = true
  /-- So is each chip's memory of 4 × 80 bytes (R170). -/
  ram1Wf : s.chip1.ram.wf 320 = true
  ram2Wf : s.chip2.ram.wf 320 = true

/-- The host drives `rst = 0` in this cycle and in every later one. -/
def State.NoReset (s : State) : Prop := ∀ line ∈ s.host, line.drive.rst = false

/-- A host line that writes no framebuffer byte. -/
def HostLine.noFbWrite (line : HostLine) : Bool := !(line.drive.fbEn && line.drive.fbWe)

/-- The host writes no framebuffer byte in this cycle or any later one (R231). -/
def State.NoFbWrite (s : State) : Prop := ∀ line ∈ s.host, line.noFbWrite = true

/-- The host has `w` on offer as its present line, and neither this line nor a later one resets. -/
def State.Offers (s : State) (w : BitVec 13) (rest : List HostLine) : Prop :=
  s.host = .request w :: rest ∧ ∀ line ∈ rest, line.drive.rst = false

/-! ### The chips -/

/-- The chip of a number. -/
def State.chip (s : State) : ChipId → Chip
  | .one => s.chip1
  | .two => s.chip2

/-- The select line of a chip, active low (R20). -/
def State.selectN (s : State) : ChipId → Bool
  | .one => s.cs1n
  | .two => s.cs2n

/-- The first panel column a chip shows (R2, R56). -/
def ChipId.firstColumn : ChipId → Nat
  | .one => 61
  | .two => 0

/-! ### The latch trace -/

/-- What a chip does with one wire word `(dc, d)` (R173 to R179), as a reader of the trace applies it. -/
def Chip.latch (dc : Bool) (d : Byte) (c : Chip) : Chip :=
  match decode (.wire (wireWordOf dc d)) with
  | .data d => c.takeData d
  | .pageSet p => c.selectPage p
  | .columnSet k => c.selectColumn k
  | .swReset => c.havoc
  | .displayOn => c.displayOn
  | .startLine => c.startAddress
  | .otherCmd _ => c.havoc
  | .wrcmd _ _ | .wrdata _ _ | .selpage _ _ | .selcol _ _ | .init _ _ | .flush _ _ | .rsv6 _ _ | .rsv7 _ _ => c
  | .fbw _ _ | .fbr _ _ | .fbnop _ _ _ => c

/-- The events of a trace at one chip, applied in trace order (R172). -/
def Chip.replay (j : ChipId) (events : List LatchEvent) (c : Chip) : Chip :=
  events.foldl (fun c e => if e.chip = j then c.latch e.dc e.byte else c) c

/-- The chips are what the latch trace made of two unknown chips (R171, R172). -/
def State.ChipsReplayTrace (s : State) : Prop :=
  s.chip1 = Chip.unknown.replay .one s.trace ∧ s.chip2 = Chip.unknown.replay .two s.trace

/-- At least how many cycles ago the last latch edge was, by the sequencer's state (R112). -/
def State.sinceLatch (s : State) : Nat :=
  match s.st with
  | .idle => 2 * Config.nSettle + 3
  | .s1 => 2 * Config.nSettle + 3
  | .s2 => 2 * Config.nSettle + 4
  | .s3 => 1
  | .s4 => 2 + (Config.nSettle - s.cnt)
  | .s5 => Config.nSettle + 2
  | .s6 => Config.nSettle + 3 + (Config.nSettle - s.cnt)
  | .unused7 => 0

/-- Latch edges are `L_ITEM` or more cycles apart (R241), and the last one is as long ago as the sequencer's
state says (R112). -/
def State.LatchesSpaced (s : State) : Prop :=
  (∀ e ∈ s.trace, e.time + s.sinceLatch ≤ s.cycle) ∧
  s.trace.Pairwise fun e f => e.time = f.time ∨ e.time + Config.lItem ≤ f.time

/-- The latch events of one byte sent at time `t` (R111). -/
def eventsOf (t : Nat) (m : Mask) (dc : Bool) (b : Byte) : List LatchEvent :=
  (if maskChip1 m then [⟨t, .one, dc, b⟩] else []) ++ (if maskChip2 m then [⟨t, .two, dc, b⟩] else [])

/-- What one chip latches in a FLUSH of the framebuffer contents `f`, in order, as `(dc, byte)` (R77): for
each page its page select, column 0, and the 61 bytes of the chip's half. -/
def flushedAt (j : ChipId) (f : Nat → Byte) : List (Bool × Byte) :=
  (List.range 4).flatMap fun r =>
    (false, BitVec.ofNat 8 (0xB8 + r)) :: (false, 0x00#8) ::
      (List.range 61).map fun c => (true, f (122 * r + j.firstColumn + c))

end Sys2Proof.Machine
end

