-- ==== Sys2Proof/Certificates/Slice0/Obligations.lean ====
section
/-! DEFINITION. The statements for the provers, from the numbered rules of spec/. -/

open Sys2Proof Sys2Proof.Machine

/-! ### Encodings -/

/-- R70, R74, R75: decoding the word of a well-formed instruction gives the instruction, for every operand. -/
def Obligations.DecodeOfEncodeIsIdentity : Prop :=
  ∀ i : Instr, i.wf = true → decode (encode i) = i

/-- R73: every word of every port is the word of the well-formed instruction it decodes to. -/
def Obligations.EncodeOfDecodeIsIdentity : Prop :=
  ∀ w : PortWord, (decode w).wf = true ∧ encode (decode w) = w

/-- R70, R71, R73: the row of a request is its bits 12:10, with the mask in bits 9:8 and the value in bits 7:0; and no
request word stops the block. -/
def Obligations.RequestRowIsGivenByOpAlone : Prop :=
  ∀ w : BitVec 13,
    let m := BitVec.ofNat 2 (w.toNat / 256)
    let v := BitVec.ofNat 8 w.toNat
    (decode (.request w) =
      if w.toNat < 0x0400 then .wrcmd m v
      else if w.toNat < 0x0800 then .wrdata m v
      else if w.toNat < 0x0C00 then .selpage m v
      else if w.toNat < 0x1000 then .selcol m v
      else if w.toNat < 0x1400 then .init m v
      else if w.toNat < 0x1800 then .flush m v
      else if w.toNat < 0x1C00 then .rsv6 m v
      else .rsv7 m v) ∧
    ∀ s, ∃ t, exec (decode (.request w)) s = .next t

/-- R75, R76, R173 to R179: the row of a wire word. -/
def Obligations.WireRowsPartitionTheNineBitWords : Prop :=
  ∀ w : BitVec 9,
    let d := BitVec.ofNat 8 w.toNat
    decode (.wire w) =
      if 0x100 ≤ w.toNat then .data d
      else if w.toNat < 0x80 then .columnSet (BitVec.ofNat 7 w.toNat)
      else if 0xB8 ≤ w.toNat ∧ w.toNat ≤ 0xBB then .pageSet (BitVec.ofNat 2 w.toNat)
      else if w.toNat = 0xE2 then .swReset
      else if w.toNat = 0xAF then .displayOn
      else if w.toNat = 0xC0 then .startLine
      else .otherCmd d

/-- Words of 95_test_vectors.md sections 2.1, 2.5 and 2.7 decode to the rows written beside them. -/
def Obligations.SampleWordsDecodeAsTheSpecSays : Prop :=
  decode (.request 0x03E2) = .wrcmd Mask.both 0xE2 ∧
  decode (.request 0x055A) = .wrdata Mask.chip1 0x5A ∧
  decode (.request 0x0802) = .selpage Mask.none 0x02 ∧
  decode (.request 0x0E0A) = .selcol Mask.chip2 0x0A ∧
  decode (.request 0x1000) = .init Mask.none 0x00 ∧
  decode (.request 0x17FF) = .flush Mask.both 0xFF ∧
  decode (.request 0x1800) = .rsv6 Mask.none 0x00 ∧
  decode (.request 0x1FFF) = .rsv7 Mask.both 0xFF ∧
  decode (.action 0x7E855) = .fbw 488 0x55 ∧
  decode (.action 0x43DAB) = .fbr 61 0xAB ∧
  decode (.action 0x3FFFF) = .fbnop true 511 0xFF ∧
  decode (.wire 0x1AA) = .data 0xAA ∧
  decode (.wire 0x0B9) = .pageSet 1 ∧
  decode (.wire 0x04F) = .columnSet 79 ∧
  decode (.wire 0x0E2) = .swReset ∧
  decode (.wire 0x0AF) = .displayOn ∧
  decode (.wire 0x0C0) = .startLine ∧
  decode (.wire 0x0AE) = .otherCmd 0xAE

/-! ### What a step runs -/

/-- R30, R103, R160: in `IDLE` with `rst = 0`, a step with a request offered is `exec` of the decoded request, then
`exec` of the decoded framebuffer action of the same cycle, then the host's next line and the next cycle. -/
def Obligations.StepRunsTheOfferedRequest : Prop :=
  ∀ (s : State) (i : Instr), s.st = .idle → s.inputs.rst = false → s.inputs.reqValid = true →
    decode (.request s.inputs.reqWord) = i → i.wf = true →
    ∃ t u, exec i s = .next t ∧ exec (decode (.action s.inputs.actionWord)) t = .next u ∧
      step s = .next { u with host := s.hostAfter, cycle := s.cycle + 1 }

/-- R100, R162: in every cycle with `rst = 0`, the framebuffer, `fb_rdata` and `err_addr` are what `exec` of the
decoded framebuffer action leaves of this cycle's. -/
def Obligations.StepRunsTheFramebufferAction : Prop :=
  ∀ (s : State) (i : Instr), s.inputs.rst = false → decode (.action s.inputs.actionWord) = i → i.wf = true →
    ∃ t u, exec i s = .next u ∧ step s = .next t ∧
      t.fb = u.fb ∧ t.fbRdata = u.fbRdata ∧ t.errAddr = u.errAddr

/-- R105, R172: at the edge that ends `S2` with `rst = 0`, the strobe rises and the chips become what `exec` of the
decoded wire word on the pins makes of them. -/
def Obligations.StepRunsTheWireWordAtTheStrobe : Prop :=
  ∀ (s : State) (i : Instr), s.st = .s2 → s.wrOut = false → s.inputs.rst = false →
    decode (.wire (wireWordOf s.dcOut s.dOut)) = i → i.wf = true →
    ∃ t u, exec i s = .next u ∧ step s = .next t ∧
      t.chip1 = u.chip1 ∧ t.chip2 = u.chip2 ∧ t.wrOut = true ∧ t.st = .s3

/-- `withFetchWord` places a numbered word where the next step runs it (numbering and placing are the model's choice,
log entry 7). Two-byte numbers below 0x200 are wire words and those up to 0x1FFF requests, three-byte numbers below
0x80000 are actions, and no other is a word. A placed word is what `decodeTableWord` reads, and the very next step
runs `exec` of it: a request on `req_word` in `IDLE`, an action on the framebuffer port, a wire word on the pins in
`S2` with both chips selected. -/
def Obligations.PlacedWordIsWhatTheStepRuns : Prop :=
  (∀ w : Nat,
    tablePortWord 16 w = (if w < 0x200 then .ok (.wire (BitVec.ofNat 9 w))
      else if w < 0x2000 then .ok (.request (BitVec.ofNat 13 w)) else .error .wordTooWide) ∧
    tablePortWord 24 w = (if w < 0x80000 then .ok (.action (BitVec.ofNat 19 w)) else .error .wordTooWide)) ∧
  ∀ (s : State) (nbits w : Nat),
    let p := s.withFetchWord nbits w
    match tablePortWord nbits w with
    | .error _ => decodeTableWord nbits w = none ∧ p = s
    | .ok word => decodeTableWord nbits w = some (decode word) ∧ p.inputs.rst = false ∧
      ∃ t u, exec (decode word) p = .next u ∧ step p = .next t ∧ t.host = s.host ∧
      match word with
      | .request r => p.st = .idle ∧ p.inputs.reqValid = true ∧ p.inputs.reqWord = r ∧
          t = { u with host := s.host, cycle := s.cycle + 1 }
      | .action a => p.inputs.actionWord = a ∧ t.fb = u.fb ∧ t.fbRdata = u.fbRdata ∧ t.errAddr = u.errAddr
      | .wire x => p.st = .s2 ∧ p.wrOut = false ∧ p.cs1n = false ∧ p.cs2n = false ∧
          wireWordOf p.dcOut p.dOut = x ∧ t.chip1 = u.chip1 ∧ t.chip2 = u.chip2 ∧ t.wrOut = true ∧ t.st = .s3

/-- R200, R204: nothing stops the block: from every state, a run of any length answers a next state, each cycle counted
once by the history field `cycle` (log entry 6). -/
def Obligations.EveryRunCompletes : Prop :=
  ∀ (k : Nat) (s : State), ∃ t, runFor k s = .next t ∧ t.cycle = s.cycle + k

/-! ### Reset -/

/-- R220: a cycle with `rst = 1` sets every register of the block to its reset value, whatever the state and the
other inputs; the framebuffer keeps its bytes, no latch event is emitted, and the next cycle is ready for a
request unless it resets again. -/
def Obligations.ResetCycleSetsEveryRegister : Prop :=
  ∀ s : State, s.inputs.rst = true →
    ∃ t, step s = .next t ∧
      t = { st := .idle, cnt := 0, cop := 0, cval := 0, cmsk := 0, idx := 0,
            dOut := 0, dcOut := false, cs1n := true, cs2n := true, wrOut := false,
            errOp := false, errAddr := false, fbRdata := 0,
            fb := s.fb, chip1 := s.chip1, chip2 := s.chip2, trace := s.trace,
            host := t.host, cycle := s.cycle + 1 } ∧
      (t.inputs.rst = false → t.reqReady t.inputs = true) ∧
      (t.inputs.rst = true → ∃ u, step t = .next u ∧
        u = { t with host := u.host, cycle := t.cycle + 1 })

/-- R171: at power-on (`State.reset` is after power-on and reset, log entry 11) every field of both chips is unknown,
and a reset of the block leaves both chips alone: both selects are high after it and no latch event is emitted. -/
def Obligations.ResetLeavesTheChipsAlone : Prop :=
  (∀ j, (State.reset.chip j).page = none ∧ (State.reset.chip j).col = none ∧ (State.reset.chip j).on = none ∧
    (State.reset.chip j).start = none ∧ ∀ p c, (State.reset.chip j).ramAt p c = none) ∧
  ∀ s t : State, s.inputs.rst = true → step s = .next t →
    (∀ j, t.chip j = s.chip j ∧ t.selectN j = true) ∧ t.trace = s.trace

/-- R220, R221 at `State.reset`: the registers have the values of R220, and every framebuffer byte reads as its
unknown power-on value, the model's free value `Config.fb0` (log entry 2). -/
def Obligations.ResetStateHasTheSpecsValues : Prop :=
  let s := State.reset
  s.st = .idle ∧ s.cnt = 0 ∧ s.cop = 0 ∧ s.cval = 0x00 ∧ s.cmsk = 0b00 ∧ s.idx = 0 ∧
  s.dOut = 0x00 ∧ s.dcOut = false ∧ s.cs1n = true ∧ s.cs2n = true ∧ s.wrOut = false ∧
  s.errOp = false ∧ s.errAddr = false ∧ s.fbRdata = 0x00 ∧
  ∀ a, s.readFb a = Config.fb0 a

/-! ### Requests -/

/-- R103, R115, R116: `WRCMD` and `WRDATA` accepted in `IDLE` store the request, put the value on the bus and begin
`S1`; nothing else changes. -/
def Obligations.WriteRequestsAreAccepted : Prop :=
  ∀ (s : State) (m : Mask) (v : Byte), s.st = .idle →
    exec (.wrcmd m v) s = .next { s with cop := 0, cval := v, cmsk := m, idx := 0, dOut := v, st := .s1 } ∧
    exec (.wrdata m v) s = .next { s with cop := 1, cval := v, cmsk := m, idx := 0, dOut := v, st := .s1 }

/-- R72, R103, R130: `SELPAGE` accepted in `IDLE` puts `0xB8 + value mod 4` on the bus. -/
def Obligations.SelpageIsAccepted : Prop :=
  ∀ (s : State) (m : Mask) (v : Byte), s.st = .idle →
    exec (.selpage m v) s =
      .next { s with cop := 2, cval := v, cmsk := m, idx := 0, dOut := BitVec.ofNat 8 (0xB8 + v.toNat % 4), st := .s1 }

/-- R72, R103, R131: `SELCOL` accepted in `IDLE` puts `value mod 128` on the bus. -/
def Obligations.SelcolIsAccepted : Prop :=
  ∀ (s : State) (m : Mask) (v : Byte), s.st = .idle →
    exec (.selcol m v) s =
      .next { s with cop := 3, cval := v, cmsk := m, idx := 0, dOut := BitVec.ofNat 8 (v.toNat % 128), st := .s1 }

/-- R103, R142, R143: `INIT` and `FLUSH` accepted in `IDLE` put their first byte on the bus. -/
def Obligations.SequencesAreAccepted : Prop :=
  ∀ (s : State) (m : Mask) (v : Byte), s.st = .idle →
    exec (.init m v) s = .next { s with cop := 4, cval := v, cmsk := m, idx := 0, dOut := 0xE2, st := .s1 } ∧
    exec (.flush m v) s = .next { s with cop := 5, cval := v, cmsk := m, idx := 0, dOut := 0xB8, st := .s1 }

/-- R120: opcodes 6 and 7 accepted in `IDLE` set `err_op` and change nothing else, with any mask and value, and
again when `err_op` is set already; the block stays in `IDLE`, ready for the next request. -/
def Obligations.ReservedOpcodesOnlyRaiseErrOp : Prop :=
  ∀ (s : State) (m : Mask) (v : Byte), s.st = .idle →
    exec (.rsv6 m v) s = .next { s with errOp := true } ∧
    exec (.rsv7 m v) s = .next { s with errOp := true } ∧
    ∀ op : BitVec 3, 6 ≤ op.toNat → s.host = [.request (requestWord op m v)] →
      step s = .next { s with errOp := true, host := [], cycle := s.cycle + 1 }

/-- R30, R114: outside `IDLE` no request is accepted or recorded: `exec` of one changes nothing (log entry 10). -/
def Obligations.RequestsWaitOutsideIdle : Prop :=
  ∀ (s : State) (m : Mask) (v : Byte), s.st ≠ .idle →
    ∀ i ∈ [Instr.wrcmd m v, .wrdata m v, .selpage m v, .selcol m v, .init m v, .flush m v, .rsv6 m v, .rsv7 m v],
      exec i s = .next s

/-- R103: what the sequencer does in `IDLE` in a cycle with `rst = 0`; a request line is consumed at that edge. -/
def Obligations.IdleAcceptsExactlyAnOfferedRequest : Prop :=
  ∀ s : State, s.st = .idle → s.inputs.rst = false →
    let w := s.inputs.reqWord
    ∃ t, step s = .next t ∧ (∀ r rest, s.host = .request r :: rest → t.host = rest) ∧
      if s.inputs.reqValid = false then
        t = { s with fb := t.fb, fbRdata := t.fbRdata, errAddr := t.errAddr, host := t.host, cycle := s.cycle + 1 }
      else if w.toNat / 1024 ≤ 5 then
        t = { s with
              cop := w.extractLsb' 10 3, cval := w.extractLsb' 0 8, cmsk := w.extractLsb' 8 2, idx := 0
              dOut := s.sourceByte (item (w.extractLsb' 10 3) (w.extractLsb' 0 8) (w.extractLsb' 8 2) 0).src
              st := .s1
              fb := t.fb, fbRdata := t.fbRdata, errAddr := t.errAddr, host := t.host, cycle := s.cycle + 1 }
      else
        t = { s with
              errOp := true
              fb := t.fb, fbRdata := t.fbRdata, errAddr := t.errAddr, host := t.host, cycle := s.cycle + 1 }

/-- R30: the outputs `busy` and `req_ready`, and a request line is consumed exactly when `req_ready = 1`. -/
def Obligations.ReadyAndBusyAreCombinational : Prop :=
  ∀ s : State,
    s.outputs.busy = decide (s.st ≠ .idle) ∧
    s.outputs.reqReady = (decide (s.st = .idle) && !s.inputs.rst) ∧
    ∀ w rest, s.host = .request w :: rest → ∃ t, step s = .next t ∧
      t.host = if s.outputs.reqReady = true then rest else s.host

/-! ### The sequencer -/

/-- R104: `S1` to `S2`. The fields of the framebuffer port, the host and the clock apart, nothing else changes. -/
def Obligations.S1DrivesTheControlLines : Prop :=
  ∀ s : State, s.st = .s1 → s.inputs.rst = false →
    let it := item s.cop s.cval s.cmsk s.idx.toNat
    ∃ t, step s = .next t ∧
      t = { s with
            dcOut := it.dc, cs1n := !it.mask.getLsbD 0, cs2n := !it.mask.getLsbD 1, wrOut := false, st := .s2
            fb := t.fb, fbRdata := t.fbRdata, errAddr := t.errAddr, host := t.host, cycle := s.cycle + 1 }

/-- R105: `S2` to `S3`: the strobe rises and each selected chip's latch event is emitted, chip 1 first; and this is
the only rising edge of the strobe (which R105 marks as its own inference). -/
def Obligations.S2RaisesTheStrobeAndLatches : Prop :=
  (∀ s : State, s.st = .s2 → s.inputs.rst = false →
    ∃ t, step s = .next t ∧
      t = { s with
            wrOut := true, st := .s3
            trace := s.trace ++ ((if s.cs1n = false then [⟨s.cycle, .one, s.dcOut, s.dOut⟩] else []) ++
              (if s.cs2n = false then [⟨s.cycle, .two, s.dcOut, s.dOut⟩] else []))
            chip1 := t.chip1, chip2 := t.chip2
            fb := t.fb, fbRdata := t.fbRdata, errAddr := t.errAddr, host := t.host, cycle := s.cycle + 1 }) ∧
  ∀ s t : State, step s = .next t → s.wrOut = false → t.wrOut = true → s.st = .s2

/-- R106, R108: `S3` and `S5` load the settle counter. -/
def Obligations.SettleCounterIsLoaded : Prop :=
  ∀ s : State, s.inputs.rst = false →
    (s.st = .s3 → ∃ t, step s = .next t ∧
      t = { s with
            cnt := Config.nSettle, st := .s4
            fb := t.fb, fbRdata := t.fbRdata, errAddr := t.errAddr, host := t.host, cycle := s.cycle + 1 }) ∧
    (s.st = .s5 → ∃ t, step s = .next t ∧
      t = { s with
            cnt := Config.nSettle, st := .s6
            fb := t.fb, fbRdata := t.fbRdata, errAddr := t.errAddr, host := t.host, cycle := s.cycle + 1 })

/-- R107: `S4` counts down and at 1 drives the strobe low. -/
def Obligations.S4CountsDownThenDropsTheStrobe : Prop :=
  ∀ s : State, s.st = .s4 → s.inputs.rst = false → 1 ≤ s.cnt →
    ∃ t, step s = .next t ∧
      t = { s with
            cnt := s.cnt - 1
            wrOut := if s.cnt = 1 then false else s.wrOut
            st := if s.cnt = 1 then .s5 else .s4
            fb := t.fb, fbRdata := t.fbRdata, errAddr := t.errAddr, host := t.host, cycle := s.cycle + 1 }

/-- R109, R141: `S6` counts down; at 1 the next item begins with no gap, or the operation ends. -/
def Obligations.S6CountsDownThenGoesOn : Prop :=
  ∀ s : State, s.st = .s6 → s.inputs.rst = false → 1 ≤ s.cnt → s.cop.toNat ≤ 5 →
    let more := s.idx.toNat + 1 < (if s.cop.toNat ≤ 3 then 1 else if s.cop.toNat = 4 then 4 else 500)
    ∃ t, step s = .next t ∧
      t = { s with
            cnt := s.cnt - 1
            idx := if s.cnt = 1 ∧ more then BitVec.ofNat 9 (s.idx.toNat + 1) else s.idx
            dOut := if s.cnt = 1 ∧ more then s.sourceByte (item s.cop s.cval s.cmsk (s.idx.toNat + 1)).src else s.dOut
            st := if s.cnt = 1 then (if more then .s1 else .idle) else .s6
            fb := t.fb, fbRdata := t.fbRdata, errAddr := t.errAddr, host := t.host, cycle := s.cycle + 1 }

/-- In `st = 7` no sequencer rule fires; only `rst = 1` leaves it (93 U8; log entry 9). -/
def Obligations.UnusedSequencerStateHolds : Prop :=
  ∀ s : State, s.st = .unused7 →
    ∃ t, step s = .next t ∧
      if s.inputs.rst = true then t.st = .idle
      else t = { s with fb := t.fb, fbRdata := t.fbRdata, errAddr := t.errAddr, host := t.host, cycle := s.cycle + 1 }

/-- R140, R141: the item function, operation by operation; no framebuffer item is out of range. -/
def Obligations.ItemFunctionIsTheTable : Prop :=
  ∀ (v : Byte) (m : Mask),
    item 0 v m 0 = ⟨false, m, .imm v⟩ ∧
    item 1 v m 0 = ⟨true, m, .imm v⟩ ∧
    item 2 v m 0 = ⟨false, 0b11, .imm (BitVec.ofNat 8 (0xB8 + v.toNat % 4))⟩ ∧
    item 3 v m 0 = ⟨false, m, .imm (BitVec.ofNat 8 (v.toNat % 128))⟩ ∧
    (List.range 4).map (item 4 v m) =
      [⟨false, 0b11, .imm 0xE2⟩, ⟨false, 0b11, .imm 0xAF⟩, ⟨false, 0b11, .imm 0xC0⟩, ⟨false, 0b11, .imm 0xBB⟩] ∧
    (∀ r < 4,
      item 5 v m (125 * r) = ⟨false, 0b11, .imm (BitVec.ofNat 8 (0xB8 + r))⟩ ∧
      item 5 v m (125 * r + 1) = ⟨false, 0b10, .imm 0x00⟩ ∧
      item 5 v m (125 * r + 63) = ⟨false, 0b01, .imm 0x00⟩ ∧
      ∀ c < 61,
        item 5 v m (125 * r + 2 + c) = ⟨true, 0b10, .fb (122 * r + c)⟩ ∧
        item 5 v m (125 * r + 64 + c) = ⟨true, 0b01, .fb (122 * r + 61 + c)⟩) ∧
    (∀ op i a, i < itemCount op → (item op v m i).src = .fb a → a ≤ 487) ∧
    itemCount 0 = 1 ∧ itemCount 1 = 1 ∧ itemCount 2 = 1 ∧ itemCount 3 = 1 ∧ itemCount 4 = 4 ∧ itemCount 5 = 500

/-- R145, first sentence: the index of the FLUSH item that sends framebuffer byte `a`, and that no other item
sends it. -/
def Obligations.FlushIndexLocatesEveryByte : Prop :=
  ∀ (v : Byte) (m : Mask) (a : Nat), a < 488 →
    let i := if a % 122 ≤ 60 then 125 * (a / 122) + 2 + a % 122 else 125 * (a / 122) + 64 + (a % 122 - 61)
    i < 500 ∧ item 5 v m i = ⟨true, if a % 122 ≤ 60 then 0b10 else 0b01, .fb a⟩ ∧
      ∀ i' < 500, (item 5 v m i').src = .fb a → i' = i

/-- R114, R232: while the block is busy, the request the host offers has no influence: two hosts that agree on
`rst` and the framebuffer port in this cycle give the same next state, their own programs apart. -/
def Obligations.BusyBlockIgnoresRequests : Prop :=
  ∀ (s : State) (h : List HostLine), s.st ≠ .idle →
    let s' := { s with host := h }
    s'.inputs.rst = s.inputs.rst → s'.inputs.actionWord = s.inputs.actionWord →
    ∃ t t', step s = .next t ∧ step s' = .next t' ∧ t' = { t with host := t'.host }

/-- R162: the framebuffer action of a cycle has no influence on anything but the framebuffer, `fb_rdata` and
`err_addr`: two hosts that agree on `rst` and the request in this cycle give the same next state otherwise. -/
def Obligations.FramebufferActionsDoNotDisturbTheSequencer : Prop :=
  ∀ (s : State) (h : List HostLine),
    let s' := { s with host := h }
    s'.inputs.rst = s.inputs.rst → s'.inputs.reqValid = s.inputs.reqValid →
    s'.inputs.reqWord = s.inputs.reqWord →
    ∃ t t', step s = .next t ∧ step s' = .next t' ∧
      t' = { t with fb := t'.fb, fbRdata := t'.fbRdata, errAddr := t'.errAddr, host := t'.host }

/-! ### The framebuffer port -/

/-- R160: `FBW` writes exactly the addressed byte, or only sets `err_addr` at an address of 488 or more. -/
def Obligations.FbwWritesExactlyOneByte : Prop :=
  ∀ (s : State) (a : BitVec 9) (b : Byte),
    (a.toNat ≤ 487 → ∃ t, exec (.fbw a b) s = .next t ∧ t = { s with fb := t.fb } ∧
      t.readFb a.toNat = b ∧ ∀ x, x ≠ a.toNat → t.readFb x = s.readFb x) ∧
    (488 ≤ a.toNat → exec (.fbw a b) s = .next { s with errAddr := true })

/-- R161: `FBR` gives the addressed byte on `fb_rdata`, or 0x00 with `err_addr` at an address of 488 or more. -/
def Obligations.FbrReadsOneByte : Prop :=
  ∀ (s : State) (a : BitVec 9) (b : Byte),
    (a.toNat ≤ 487 → exec (.fbr a b) s = .next { s with fbRdata := s.readFb a.toNat }) ∧
    (488 ≤ a.toNat → exec (.fbr a b) s = .next { s with fbRdata := 0x00, errAddr := true })

/-- R162: `fb_en = 0` leaves everything unchanged, whatever the other bits. -/
def Obligations.FbnopChangesNothing : Prop :=
  ∀ (s : State) (we : Bool) (a : BitVec 9) (b : Byte), exec (.fbnop we a b) s = .next s

/-- R55, R58, R221: over one step, a framebuffer byte changes only by an `FBW` to it in that very cycle, and then it
is the byte written; a reset changes none. -/
def Obligations.FramebufferBytesChangeOnlyByFbw : Prop :=
  ∀ (s t : State) (a : Nat), step s = .next t →
    t.readFb a =
      if s.inputs.rst = false ∧ s.inputs.fbEn = true ∧ s.inputs.fbWe = true ∧
          s.inputs.fbAddr.toNat = a ∧ a ≤ 487 then s.inputs.fbWdata
      else s.readFb a

/-- R57, R202: when FLUSH reads a byte at the edge at which the host writes it, it reads the old byte, and the new
one is in the framebuffer after. -/
def Obligations.FlushReadsTheOldByteAtTheSameEdge : Prop :=
  ∀ (s : State) (a : BitVec 9), s.inputs.rst = false → s.st = .s6 → s.cnt = 1 → s.cop = 5 →
    s.idx.toNat + 1 < 500 → (item 5 s.cval s.cmsk (s.idx.toNat + 1)).src = .fb a.toNat →
    s.inputs.fbEn = true → s.inputs.fbWe = true → s.inputs.fbAddr = a →
    ∃ t, step s = .next t ∧ t.st = .s1 ∧ t.dOut = s.readFb a.toNat ∧ t.readFb a.toNat = s.inputs.fbWdata

/-- R28: each error flag is set by its one cause and cleared by reset alone, and no result depends on a flag. -/
def Obligations.ErrorFlagsAreSticky : Prop :=
  (∀ s t : State, step s = .next t →
    t.errOp = (!s.inputs.rst &&
      (s.errOp || (decide (s.st = .idle) && s.inputs.reqValid && decide (6 ≤ s.inputs.reqWord.toNat / 1024)))) ∧
    t.errAddr = (!s.inputs.rst && (s.errAddr || (s.inputs.fbEn && decide (488 ≤ s.inputs.fbAddr.toNat))))) ∧
  ∀ (s : State) (e₁ e₂ : Bool),
    ∃ t t', step s = .next t ∧ step { s with errOp := e₁, errAddr := e₂ } = .next t' ∧
      t' = { t with errOp := t'.errOp, errAddr := t'.errAddr }

/-- R50, R51, R56: byte address `a` is page `a div 122`, column `a mod 122`; the left half goes to chip 2 and the
right half to chip 1 at chip columns 0 to 60; the pixel at `(x, y)` is bit `y mod 8` of its byte. -/
def Obligations.FramebufferLayoutIsTheMap : Prop :=
  (∀ a < 488, fbPage a = a / 122 ∧ fbColumn a = a % 122 ∧ fbPage a < 4 ∧ fbColumn a < 122 ∧
    fbAddress (fbPage a) (fbColumn a) = a) ∧
  (∀ r < 4, ∀ c < 122, fbAddress r c = 122 * r + c ∧ fbAddress r c < 488 ∧
    columnChip c = (if c < 61 then .two else .one) ∧ chipColumn c = c % 61 ∧
    c = (columnChip c).firstColumn + chipColumn c) ∧
  ∀ (s : State) (x y : Nat), s.fbPixel x y = (s.readFb (122 * (y / 8) + x)).getLsbD (y % 8)

/-! ### The chips -/

/-- A data byte at a chip whose select is low: with the page known and the column known and at most 79, it is stored
there and the column advances; else the chip's memory and column become unknown. A chip whose select is high keeps
its state, and nothing but the chips changes. That the column advances is an inference the spec marks as its own
(R173 "[derived: from 42_sequences.md rule R143]", 93 U3; log entry 12). -/
def Obligations.DataByteIsStoredAndTheColumnAdvances : Prop :=
  ∀ (s : State) (d : Byte), decode (.wire (wireWordOf true d)) = .data d ∧ ∃ t, exec (.data d) s = .next t ∧
    t = { s with chip1 := t.chip1, chip2 := t.chip2 } ∧
    ∀ j,
      (s.selectN j = true → t.chip j = s.chip j) ∧
      (s.selectN j = false →
        (∀ p c, (s.chip j).page = some p → (s.chip j).col = some c → c.toNat ≤ 79 →
          t.chip j = { s.chip j with ram := (t.chip j).ram, col := some (BitVec.ofNat 7 (c.toNat + 1)) } ∧
          (t.chip j).ramAt p.toNat c.toNat = some d ∧
          ∀ p' c', p' < 4 → c' < 80 → (p' ≠ p.toNat ∨ c' ≠ c.toNat) →
            (t.chip j).ramAt p' c' = (s.chip j).ramAt p' c') ∧
        (((s.chip j).page = none ∨ (s.chip j).col = none ∨ ∃ c, (s.chip j).col = some c ∧ 80 ≤ c.toNat) →
          t.chip j = { s.chip j with ram := (t.chip j).ram, col := none } ∧
          ∀ p c, (t.chip j).ramAt p c = none))

/-- R174, R175: the page and column select bytes, and what they do at the chips whose select is low; nothing else
changes, and a column of 80 to 127 is recorded as given. -/
def Obligations.PageAndColumnSelectSetOneField : Prop :=
  (∀ d : Byte,
    (d.toNat / 4 = 0b101110 → decode (.wire (wireWordOf false d)) = .pageSet (BitVec.ofNat 2 (d.toNat % 4))) ∧
    (d.toNat < 128 → decode (.wire (wireWordOf false d)) = .columnSet (BitVec.ofNat 7 d.toNat))) ∧
  ∀ s : State,
    (∀ p : BitVec 2, exec (.pageSet p) s = .next { s with
      chip1 := if s.cs1n = false then { s.chip1 with page := some p } else s.chip1
      chip2 := if s.cs2n = false then { s.chip2 with page := some p } else s.chip2 }) ∧
    (∀ c : BitVec 7, exec (.columnSet c) s = .next { s with
      chip1 := if s.cs1n = false then { s.chip1 with col := some c } else s.chip1
      chip2 := if s.cs2n = false then { s.chip2 with col := some c } else s.chip2 })

/-- R176, R179: the bytes of software reset and of the other commands; after one of them nothing is known of the chips
whose select is low, and nothing else changes. -/
def Obligations.ResetAndOtherCommandsForgetTheChip : Prop :=
  (∀ d : Byte, (d = 0xE2 → decode (.wire (wireWordOf false d)) = .swReset) ∧
    (128 ≤ d.toNat → ¬ (0xB8 ≤ d.toNat ∧ d.toNat ≤ 0xBB) → d ≠ 0xE2 → d ≠ 0xAF → d ≠ 0xC0 →
      decode (.wire (wireWordOf false d)) = .otherCmd d)) ∧
  ∀ (s : State) (i : Instr), (i = .swReset ∨ ∃ d, i = .otherCmd d) →
    ∃ t, exec i s = .next t ∧ t = { s with chip1 := t.chip1, chip2 := t.chip2 } ∧
    ∀ j,
      (s.selectN j = true → t.chip j = s.chip j) ∧
      (s.selectN j = false →
        (t.chip j).page = none ∧ (t.chip j).col = none ∧ (t.chip j).on = none ∧ (t.chip j).start = none ∧
        ∀ p c, (t.chip j).ramAt p c = none)

/-- Display on and display start address at the chips whose select is low; nothing else changes. That `0xC0` sets
start line 0 is what the spec supplies "[from general knowledge, not in source]" (R178, 93 G2; log entry 12). -/
def Obligations.DisplayOnAndStartAddressSetOneField : Prop :=
  ∀ s : State,
    decode (.wire (wireWordOf false 0xAF)) = .displayOn ∧ decode (.wire (wireWordOf false 0xC0)) = .startLine ∧
    exec .displayOn s = .next { s with
      chip1 := if s.cs1n = false then { s.chip1 with on := some .isOn } else s.chip1
      chip2 := if s.cs2n = false then { s.chip2 with on := some .isOn } else s.chip2 } ∧
    exec .startLine s = .next { s with
      chip1 := if s.cs1n = false then { s.chip1 with start := some .zero } else s.chip1
      chip2 := if s.cs2n = false then { s.chip2 with start := some .zero } else s.chip2 }

/-- R180: what a wire word does at one chip does not depend on the other chip or its select, and a word sent to the
other chip alone leaves a chip unchanged. -/
def Obligations.ChipsAreIndependent : Prop :=
  ∀ (w : BitVec 9) (s s' : State) (j : ChipId), s.chip j = s'.chip j → s.selectN j = s'.selectN j →
    ∃ t t', exec (decode (.wire w)) s = .next t ∧ exec (decode (.wire w)) s' = .next t' ∧ t.chip j = t'.chip j ∧
      (s.selectN j = true → t.chip j = s.chip j)

/-- R172: over one step, a chip takes the word on the pins exactly when the strobe rises while its select is low;
else it keeps its state; and in a state of the invariant the latch events emitted are exactly these. -/
def Obligations.ChipsLatchExactlyAtARisingStrobe : Prop :=
  ∀ s t : State, step s = .next t →
    (∀ j, t.chip j =
      if !s.wrOut && t.wrOut && !s.selectN j then (s.chip j).latch s.dcOut s.dOut else s.chip j) ∧
    (s.Inv → t.trace = s.trace ++ ([ChipId.one, .two].filter fun j =>
      !s.wrOut && t.wrOut && !s.selectN j).map fun j => ⟨s.cycle, j, s.dcOut, s.dOut⟩)

/-! ### Invariants -/

/-- The reset state meets the invariant and the two history invariants (the values of the history fields at reset
are the model's choice, log entry 6). -/
def Obligations.ResetMeetsTheInvariants : Prop :=
  State.reset.Inv ∧ State.reset.ChipsReplayTrace ∧ State.reset.LatchesSpaced

/-- R23, R26, R50, R78, R141: the invariant is kept by every step. -/
def Obligations.StepKeepsTheInvariant : Prop :=
  ∀ s t : State, s.Inv → step s = .next t → t.Inv

/-- The canonical form of all three memories is kept by every step, from every state that has it. -/
def Obligations.StepKeepsMemoriesCanonical : Prop :=
  ∀ s t : State, s.fb.wf 488 = true → s.chip1.ram.wf 320 = true → s.chip2.ram.wf 320 = true → step s = .next t →
    t.fb.wf 488 = true ∧ t.chip1.ram.wf 320 = true ∧ t.chip2.ram.wf 320 = true

/-- R111, R171, R172: every step keeps that each chip is what the latch trace, applied in order, makes of an unknown
chip; with the invariant. -/
def Obligations.StepKeepsChipsEqualToTraceReplay : Prop :=
  ∀ s t : State, s.Inv → s.ChipsReplayTrace → step s = .next t → t.ChipsReplayTrace

/-- R112, R241: every step without reset keeps that latch edges are `L_ITEM` or more cycles apart. -/
def Obligations.StepKeepsLatchesSpaced : Prop :=
  ∀ s t : State, s.Inv → s.LatchesSpaced → s.inputs.rst = false → step s = .next t → t.LatchesSpaced

/-! ### Whole operations, with any host that does not reset -/

/-- R78, R101, R112: the steps and pins of a byte write, cycle by cycle: `L_ITEM = 4 + 2 N_SETTLE` cycles, the byte on
the bus in all of them, the control lines from the second on, the strobe high exactly in `S3` and `S4`; then the next
item or `IDLE`. -/
def Obligations.ByteWritePinTrace : Prop :=
  ∀ s : State, s.NoReset → s.st = .s1 → s.wrOut = false →
    let N := Config.nSettle
    let it := item s.cop s.cval s.cmsk s.idx.toNat
    (∃ u, runFor (4 + 2 * N) s = .next u ∧ (u.st = .s1 ∨ u.st = .idle)) ∧
    ∀ j < 4 + 2 * N, ∃ u, runFor j s = .next u ∧
      u.st = (if j = 0 then .s1 else if j = 1 then .s2 else if j = 2 then .s3 else if j < 3 + N then .s4
        else if j = 3 + N then .s5 else .s6) ∧
      u.dOut = s.dOut ∧
      u.dcOut = (if j = 0 then s.dcOut else it.dc) ∧
      u.cs1n = (if j = 0 then s.cs1n else !it.mask.getLsbD 0) ∧
      u.cs2n = (if j = 0 then s.cs2n else !it.mask.getLsbD 1) ∧
      u.wrOut = decide (2 ≤ j ∧ j < 3 + N)

/-- R113, R239: the timing of an operation of `n` items accepted at the end of the present cycle. -/
def Obligations.OperationTiming : Prop :=
  ∀ (s : State) (w : BitVec 13) (rest : List HostLine), s.st = .idle → s.Offers w rest → w.toNat / 1024 ≤ 5 →
    let n := if w.toNat / 1024 ≤ 3 then 1 else if w.toNat / 1024 = 4 then 4 else 500
    (∀ j, 1 ≤ j → j ≤ n * Config.lItem → ∃ u, runFor j s = .next u ∧ u.st ≠ .idle) ∧
    (∀ i < n, ∃ u, runFor (1 + i * Config.lItem) s = .next u ∧ u.st = .s1 ∧ u.idx.toNat = i) ∧
    (∀ i < n, ∃ u v, runFor (2 + i * Config.lItem) s = .next u ∧ u.st = .s2 ∧
      step u = .next v ∧ v.st = .s3 ∧ v.wrOut = true) ∧
    ∃ t, runFor (1 + n * Config.lItem) s = .next t ∧ t.st = .idle ∧ t.idx.toNat = n - 1

/-- R115, R116, R130, R131, R234: what each single-byte request sends: one latch edge two cycles after acceptance, at
the chips of the mask (both for SELPAGE, none for mask NONE), and the block idle after `L_ITEM` busy cycles. -/
def Obligations.SingleByteRequestsLatchOneByte : Prop :=
  ∀ (s : State) (op : BitVec 3) (m : Mask) (v : Byte) (rest : List HostLine), s.st = .idle → op.toNat ≤ 3 →
    s.Offers (requestWord op m v) rest →
    let dc := decide (op = 1)
    let mask := if op = 2 then Mask.both else m
    let b := if op = 2 then BitVec.ofNat 8 (0xB8 + v.toNat % 4)
      else if op = 3 then BitVec.ofNat 8 (v.toNat % 128) else v
    ∃ t, runFor (1 + Config.lItem) s = .next t ∧ t.st = .idle ∧
      t.trace = s.trace ++
        ((if mask.getLsbD 0 then [⟨s.cycle + 2, .one, dc, b⟩] else []) ++
         (if mask.getLsbD 1 then [⟨s.cycle + 2, .two, dc, b⟩] else [])) ∧
      t.chip1 = (if mask.getLsbD 0 then s.chip1.latch dc b else s.chip1) ∧
      t.chip2 = (if mask.getLsbD 1 then s.chip2.latch dc b else s.chip2) ∧
      t.dOut = b ∧ t.dcOut = dc ∧ t.cs1n = !mask.getLsbD 0 ∧ t.cs2n = !mask.getLsbD 1 ∧ t.wrOut = false ∧
      t.cop = op ∧ t.cval = v ∧ t.cmsk = m ∧ t.idx = 0 ∧ t.errOp = s.errOp

/-- INIT sends its four bytes to both chips back to back, and the chips end on page 3, display on, start line 0,
everything else unknown; start line 0 rests on the spec's general knowledge (93 G2; log entry 12). -/
def Obligations.InitSendsItsFourBytes : Prop :=
  ∀ (s : State) (m : Mask) (v : Byte) (rest : List HostLine), s.st = .idle →
    s.Offers (requestWord 4 m v) rest →
    let L := Config.lItem
    let both := fun (t : Nat) (b : Byte) => [LatchEvent.mk t .one false b, LatchEvent.mk t .two false b]
    ∃ t, runFor (1 + 4 * L) s = .next t ∧ t.st = .idle ∧ t.cop = 4 ∧ t.idx = 3 ∧
      t.trace = s.trace ++ both (s.cycle + 2) 0xE2 ++ both (s.cycle + 2 + L) 0xAF ++
        both (s.cycle + 2 + 2 * L) 0xC0 ++ both (s.cycle + 2 + 3 * L) 0xBB ∧
      t.dOut = 0xBB ∧ t.dcOut = false ∧ t.cs1n = false ∧ t.cs2n = false ∧ t.wrOut = false ∧ t.errOp = s.errOp ∧
      ∀ j, t.chip j = { page := some 3, col := none, ram := [], on := some .isOn, start := some .zero }

/-- R143, R144: with no framebuffer write by the host, a FLUSH sends to each chip, for each page, its page select,
column 0 and the 61 bytes of its half, in order, and nothing else; it changes no framebuffer byte. -/
def Obligations.FlushSendsEveryByteOnce : Prop :=
  ∀ (s : State) (m : Mask) (v : Byte) (rest : List HostLine), s.st = .idle →
    s.Offers (requestWord 5 m v) rest → s.NoFbWrite →
    ∃ t ev, runFor (1 + 500 * Config.lItem) s = .next t ∧ t.st = .idle ∧ t.trace = s.trace ++ ev ∧
      (∀ j, (ev.filter fun e => e.chip = j).map (fun e => (e.dc, e.byte)) = flushedAt j s.readFb) ∧
      (∀ e ∈ ev, s.cycle < e.time ∧ e.time ≤ s.cycle + 500 * Config.lItem) ∧
      (∀ a, t.readFb a = s.readFb a) ∧
      t.cop = 5 ∧ t.idx = 499 ∧ t.dOut = s.readFb 487 ∧ t.dcOut = true ∧ t.cs1n = false ∧ t.cs2n = true ∧
      t.wrOut = false ∧ t.errOp = s.errOp

/-- R145: whatever the host writes meanwhile, a FLUSH sends framebuffer byte `a` as it stands at the edge that ends
cycle `t0 + i(a) × L_ITEM`, and the chip of its column latches it two cycles later. -/
def Obligations.FlushSendsEachByteAsOfItsReadEdge : Prop :=
  ∀ (s : State) (m : Mask) (v : Byte) (rest : List HostLine) (a : Nat), s.st = .idle →
    s.Offers (requestWord 5 m v) rest → a < 488 →
    let i := if a % 122 ≤ 60 then 125 * (a / 122) + 2 + a % 122 else 125 * (a / 122) + 64 + (a % 122 - 61)
    ∃ u t, runFor (i * Config.lItem) s = .next u ∧ runFor (1 + 500 * Config.lItem) s = .next t ∧
      ⟨s.cycle + i * Config.lItem + 2, if a % 122 ≤ 60 then .two else .one, true, u.readFb a⟩ ∈ t.trace

/-- After a FLUSH with no framebuffer write by the host, whatever the chips held before, both are on page 3 and column
61, and each holds its half of the framebuffer; their columns 61 to 79, display-on and start state are as before. It
rests on the column advance and on R181's lossless flush, which the spec marks as derived (93 U3; log entry 12). -/
def Obligations.FlushIsLossless : Prop :=
  ∀ (s : State) (m : Mask) (v : Byte) (rest : List HostLine), s.st = .idle →
    s.Offers (requestWord 5 m v) rest → s.NoFbWrite →
    ∃ t, runFor (1 + 500 * Config.lItem) s = .next t ∧
      ∀ j, (t.chip j).page = some 3 ∧ (t.chip j).col = some 61 ∧
        (t.chip j).on = (s.chip j).on ∧ (t.chip j).start = (s.chip j).start ∧
        ∀ r < 4, (∀ c < 61, (t.chip j).ramAt r c = some (s.readFb (122 * r + j.firstColumn + c))) ∧
          ∀ c, 61 ≤ c → c < 80 → (t.chip j).ramAt r c = (s.chip j).ramAt r c

/-- After that FLUSH, on chips known to be on with start line 0, every pixel of the panel is known and is the pixel of
the framebuffer, under the identity mapping to the glass, "the spec's assumption" (R181, 93 U3 and U5; log entry 12). -/
def Obligations.PanelShowsTheFramebufferAfterFlush : Prop :=
  ∀ (s : State) (m : Mask) (v : Byte) (rest : List HostLine), s.st = .idle →
    s.Offers (requestWord 5 m v) rest → s.NoFbWrite →
    (∀ j, (s.chip j).on = some .isOn ∧ (s.chip j).start = some .zero) →
    ∃ t, runFor (1 + 500 * Config.lItem) s = .next t ∧
      ∀ x < 122, ∀ y < 32, t.panelPixel x y = some (s.fbPixel x y) ∧ t.fbPixel x y = s.fbPixel x y

/-! ### The host and the build parameters -/

/-- R81: how long each line of a host program lasts and what it drives; the raw `cycle` line and the quiet levels of an
empty program are the model's (log entry 5). -/
def Obligations.HostLinesLastAsTheRuleSays : Prop :=
  ∀ (s : State) (rest : List HostLine), ∃ t, step s = .next t ∧
    (s.host = [] → t.host = [] ∧ s.inputs.reqValid = false ∧ s.inputs.fbEn = false ∧ s.inputs.rst = false) ∧
    (∀ w, s.host = .request w :: rest →
      s.inputs = Inputs.ofRequest w ∧ t.host = if s.st = .idle then rest else s.host) ∧
    (∀ w, s.host = .action w :: rest →
      s.inputs.actionWord = w ∧ s.inputs.reqValid = false ∧ s.inputs.rst = false ∧ t.host = rest) ∧
    (s.host = .wait :: rest →
      s.inputs = Inputs.quiet ∧ t.host = if s.st = .idle then rest else s.host) ∧
    (s.host = .idle 0 :: rest → s.inputs = Inputs.quiet ∧ t.host = rest) ∧
    (∀ n, s.host = .idle (n + 1) :: rest → s.inputs = Inputs.quiet ∧ t.host = .idle n :: rest) ∧
    (∀ inp, s.host = .cycle inp :: rest → s.inputs = inp ∧ t.host = rest)

/-- R79, R80: the word of every assembler line with every operand, the operands the assembler does not accept, the lines
of every pseudo-instruction, and that a program assembles line by line, exactly when each of its lines does. How the
host line of `IDLE n` counts is the model's (log entry 5). -/
def Obligations.AssemblerEncodesTheLines : Prop :=
  (∀ (b : Byte) (m : Mask),
    AsmLine.assemble (.wrcmd b m) = some (.request (BitVec.ofNat 13 (256 * m.toNat + b.toNat))) ∧
    AsmLine.assemble (.wrdata b m) = some (.request (BitVec.ofNat 13 (0x0400 + 256 * m.toNat + b.toNat)))) ∧
  (∀ page, AsmLine.assemble (.selpage page) =
    if page ≤ 3 then some (.request (BitVec.ofNat 13 (0x0800 + page))) else none) ∧
  (∀ (col : Nat) (m : Mask), AsmLine.assemble (.selcol col m) =
    if col ≤ 127 then some (.request (BitVec.ofNat 13 (0x0C00 + 256 * m.toNat + col))) else none) ∧
  AsmLine.assemble .init = some (.request 0x1000) ∧
  AsmLine.assemble .flush = some (.request 0x1400) ∧
  (∀ w, AsmLine.assemble (.req w) = some (.request w)) ∧
  (∀ (a : Nat) (b : Byte), AsmLine.assemble (.fbw a b) =
    if a ≤ 511 then some (.action (BitVec.ofNat 19 (0x60000 + 256 * a + b.toNat))) else none) ∧
  (∀ a, AsmLine.assemble (.fbr a) =
    if a ≤ 511 then some (.action (BitVec.ofNat 19 (0x40000 + 256 * a))) else none) ∧
  AsmLine.assemble .wait = some .wait ∧
  AsmLine.assemble (.idle 0) = none ∧ (∀ n, AsmLine.assemble (.idle (n + 1)) = some (.idle n)) ∧
  Pseudo.expand .swreset = [.wrcmd 0xE2 0b11] ∧ Pseudo.expand .dispon = [.wrcmd 0xAF 0b11] ∧
  Pseudo.expand .startline0 = [.wrcmd 0xC0 0b11] ∧
  (∀ b, (Pseudo.expand (.fbfill b)).length = 488 ∧ ∀ a < 488, (Pseudo.expand (.fbfill b))[a]? = some (.fbw a b)) ∧
  Pseudo.expand .clear = Pseudo.expand (.fbfill 0x00) ∧
  ∀ lines out, assembleAll lines = some out ↔ lines.map AsmLine.assemble = out.map some

/-- R7, R230: R7's formula is at least 1 and gives the least settle delay that meets the requirement; so this block
meets it exactly when `N_SETTLE` is that or more. -/
def Obligations.SettleFormulaMeetsTheRequirement : Prop :=
  ∀ us hz : Nat, 1 ≤ Config.settleCycles us hz ∧ us * hz ≤ Config.settleCycles us hz * 1000000 ∧
    (∀ n, 1 ≤ n → us * hz ≤ n * 1000000 → Config.settleCycles us hz ≤ n) ∧
    (Config.meetsSettle us hz ↔ Config.settleCycles us hz ≤ Config.nSettle)
end

