-- ==== Sys2Proof/Laws/Codec.lean ====
section
/-! SUPPORT. The fields of the three encodings, read as numbers: a word assembled from its fields has those fields,
and a word is assembled from the fields it has. -/

namespace Sys2Proof

theorem toNat_ofBool (b : Bool) : (BitVec.ofBool b).toNat = b.toNat := by cases b <;> rfl

theorem toNat_getLsbD {n : Nat} (w : BitVec n) (i : Nat) : (w.getLsbD i).toNat = w.toNat / 2 ^ i % 2 := by
  simp only [BitVec.getLsbD, Nat.testBit_eq_decide_div_mod_eq]
  rcases Nat.mod_two_eq_zero_or_one (w.toNat / 2 ^ i) with h | h <;> simp [h]

theorem bool_eq_of_toNat {a b : Bool} (h : a.toNat = b.toNat) : a = b := by
  cases a <;> cases b <;> simp_all

/-! ### Requests (R70) -/

theorem toNat_requestWord (op : BitVec 3) (m : Mask) (v : Byte) :
    (requestWord op m v).toNat = 1024 * op.toNat + 256 * m.toNat + v.toNat := by
  have h : (requestWord op m v).toNat = (op ++ m ++ v).toNat := rfl
  have h2 := m.isLt
  have h3 := v.isLt
  rw [h, BitVec.toNat_append, BitVec.toNat_append, ← Nat.shiftLeft_add_eq_or_of_lt h3,
    ← Nat.shiftLeft_add_eq_or_of_lt h2]
  simp only [Nat.shiftLeft_eq]
  omega

@[simp] theorem requestOp_word (op : BitVec 3) (m : Mask) (v : Byte) :
    requestOp (requestWord op m v) = op := by
  apply BitVec.eq_of_toNat_eq
  have h1 := op.isLt; have h2 := m.isLt; have h3 := v.isLt
  simp only [requestOp, BitVec.extractLsb'_toNat, toNat_requestWord, Nat.shiftRight_eq_div_pow]
  omega

@[simp] theorem requestMask_word (op : BitVec 3) (m : Mask) (v : Byte) :
    requestMask (requestWord op m v) = m := by
  apply BitVec.eq_of_toNat_eq
  have h1 := op.isLt; have h2 := m.isLt; have h3 := v.isLt
  simp only [requestMask, BitVec.extractLsb'_toNat, toNat_requestWord, Nat.shiftRight_eq_div_pow]
  omega

@[simp] theorem requestValue_word (op : BitVec 3) (m : Mask) (v : Byte) :
    requestValue (requestWord op m v) = v := by
  apply BitVec.eq_of_toNat_eq
  have h1 := op.isLt; have h2 := m.isLt; have h3 := v.isLt
  simp only [requestValue, BitVec.extractLsb'_toNat, toNat_requestWord, Nat.shiftRight_eq_div_pow]
  omega

/-- A request word is its three fields. -/
theorem requestWord_fields (w : BitVec 13) : requestWord (requestOp w) (requestMask w) (requestValue w) = w := by
  apply BitVec.eq_of_toNat_eq
  have h := w.isLt
  simp only [toNat_requestWord, requestOp, requestMask, requestValue, BitVec.extractLsb'_toNat,
    Nat.shiftRight_eq_div_pow]
  omega

/-! ### Framebuffer actions (R74) -/

theorem toNat_actionWordOf (en we : Bool) (a : BitVec 9) (b : Byte) :
    (actionWordOf en we a b).toNat = 262144 * en.toNat + 131072 * we.toNat + 256 * a.toNat + b.toNat := by
  have h : (actionWordOf en we a b).toNat = (BitVec.ofBool en ++ BitVec.ofBool we ++ a ++ b).toNat := rfl
  have h1 := (BitVec.ofBool we).isLt
  have h2 := a.isLt
  have h3 := b.isLt
  rw [h, BitVec.toNat_append, BitVec.toNat_append, BitVec.toNat_append, ← Nat.shiftLeft_add_eq_or_of_lt h3,
    ← Nat.shiftLeft_add_eq_or_of_lt h2, ← Nat.shiftLeft_add_eq_or_of_lt h1]
  simp only [Nat.shiftLeft_eq, toNat_ofBool]
  omega

@[simp] theorem actionEn_word (en we : Bool) (a : BitVec 9) (b : Byte) :
    actionEn (actionWordOf en we a b) = en := by
  apply bool_eq_of_toNat
  have h1 := en.toNat_lt; have h2 := we.toNat_lt; have h3 := a.isLt; have h4 := b.isLt
  rw [actionEn, toNat_getLsbD, toNat_actionWordOf]
  omega

@[simp] theorem actionWe_word (en we : Bool) (a : BitVec 9) (b : Byte) :
    actionWe (actionWordOf en we a b) = we := by
  apply bool_eq_of_toNat
  have h1 := en.toNat_lt; have h2 := we.toNat_lt; have h3 := a.isLt; have h4 := b.isLt
  rw [actionWe, toNat_getLsbD, toNat_actionWordOf]
  omega

@[simp] theorem actionAddr_word (en we : Bool) (a : BitVec 9) (b : Byte) :
    actionAddr (actionWordOf en we a b) = a := by
  apply BitVec.eq_of_toNat_eq
  have h1 := en.toNat_lt; have h2 := we.toNat_lt; have h3 := a.isLt; have h4 := b.isLt
  simp only [actionAddr, BitVec.extractLsb'_toNat, toNat_actionWordOf, Nat.shiftRight_eq_div_pow]
  omega

@[simp] theorem actionData_word (en we : Bool) (a : BitVec 9) (b : Byte) :
    actionData (actionWordOf en we a b) = b := by
  apply BitVec.eq_of_toNat_eq
  have h1 := en.toNat_lt; have h2 := we.toNat_lt; have h3 := a.isLt; have h4 := b.isLt
  simp only [actionData, BitVec.extractLsb'_toNat, toNat_actionWordOf, Nat.shiftRight_eq_div_pow]
  omega

/-- An action word is its four fields. -/
theorem actionWordOf_fields (w : BitVec 19) :
    actionWordOf (actionEn w) (actionWe w) (actionAddr w) (actionData w) = w := by
  apply BitVec.eq_of_toNat_eq
  have h := w.isLt
  rw [toNat_actionWordOf, actionEn, actionWe, toNat_getLsbD, toNat_getLsbD]
  simp only [actionAddr, actionData, BitVec.extractLsb'_toNat, Nat.shiftRight_eq_div_pow]
  omega

/-! ### Wire words (R75) -/

theorem toNat_wireWordOf (dc : Bool) (d : Byte) : (wireWordOf dc d).toNat = 256 * dc.toNat + d.toNat := by
  have h : (wireWordOf dc d).toNat = (BitVec.ofBool dc ++ d).toNat := rfl
  have h3 := d.isLt
  rw [h, BitVec.toNat_append, ← Nat.shiftLeft_add_eq_or_of_lt h3, Nat.shiftLeft_eq, toNat_ofBool]
  omega

@[simp] theorem wireDc_word (dc : Bool) (d : Byte) : wireDc (wireWordOf dc d) = dc := by
  apply bool_eq_of_toNat
  have h1 := dc.toNat_lt; have h2 := d.isLt
  rw [wireDc, toNat_getLsbD, toNat_wireWordOf]
  omega

@[simp] theorem wireByte_word (dc : Bool) (d : Byte) : wireByte (wireWordOf dc d) = d := by
  apply BitVec.eq_of_toNat_eq
  have h1 := dc.toNat_lt; have h2 := d.isLt
  simp only [wireByte, BitVec.extractLsb'_toNat, toNat_wireWordOf, Nat.shiftRight_eq_div_pow]
  omega

/-- A wire word is its two fields. -/
theorem wireWordOf_fields (w : BitVec 9) : wireWordOf (wireDc w) (wireByte w) = w := by
  apply BitVec.eq_of_toNat_eq
  have h := w.isLt
  rw [toNat_wireWordOf, wireDc, toNat_getLsbD]
  simp only [wireByte, BitVec.extractLsb'_toNat, Nat.shiftRight_eq_div_pow]
  omega

/-! ### Decoding by fields -/

/-- The eight opcodes, one by one. -/
theorem opcode_cases (op : BitVec 3) :
    op = 0 ∨ op = 1 ∨ op = 2 ∨ op = 3 ∨ op = 4 ∨ op = 5 ∨ op = 6 ∨ op = 7 := by
  revert op
  decide

/-- A request decodes by its opcode (R71, R73). -/
theorem decode_request (op : BitVec 3) (m : Mask) (v : Byte) :
    decode (.request (requestWord op m v)) =
      match op with
      | 0#3 => .wrcmd m v | 1#3 => .wrdata m v | 2#3 => .selpage m v | 3#3 => .selcol m v
      | 4#3 => .init m v | 5#3 => .flush m v | 6#3 => .rsv6 m v | 7#3 => .rsv7 m v := by
  simp only [decode, decodeRequest, requestOp_word, requestMask_word, requestValue_word] <;>
    (rcases opcode_cases op with rfl | rfl | rfl | rfl | rfl | rfl | rfl | rfl <;> rfl)

/-- A framebuffer action decodes by `fb_en` and `fb_we` (R74). -/
theorem decode_action (en we : Bool) (a : BitVec 9) (b : Byte) :
    decode (.action (actionWordOf en we a b)) =
      match en, we with
      | true, true => .fbw a b | true, false => .fbr a b | false, we => .fbnop we a b := by
  simp only [decode, decodeAction, actionEn_word, actionWe_word, actionAddr_word, actionData_word] <;>
    (cases en <;> cases we <;> rfl)

/-- A wire word decodes by `dc` (R75). -/
theorem decode_wire (dc : Bool) (d : Byte) :
    decode (.wire (wireWordOf dc d)) = if dc then .data d else decodeCommand d := by
  simp only [decode, decodeWire, wireDc_word, wireByte_word]

end Sys2Proof
end

