-- ==== Sys2Proof/Laws/State.lean ====
section
/-! SUPPORT. Each named update of the state, field by field: what it writes and what it leaves. -/

namespace Sys2Proof.Machine

open Sys2Proof

variable (s : State)

/-! ### `MemWrite` (R11) -/

@[simp] theorem writeFb_st (a : Nat) (b : Byte) : (s.writeFb a b).st = s.st := rfl
@[simp] theorem writeFb_cnt (a : Nat) (b : Byte) : (s.writeFb a b).cnt = s.cnt := rfl
@[simp] theorem writeFb_cop (a : Nat) (b : Byte) : (s.writeFb a b).cop = s.cop := rfl
@[simp] theorem writeFb_cval (a : Nat) (b : Byte) : (s.writeFb a b).cval = s.cval := rfl
@[simp] theorem writeFb_cmsk (a : Nat) (b : Byte) : (s.writeFb a b).cmsk = s.cmsk := rfl
@[simp] theorem writeFb_idx (a : Nat) (b : Byte) : (s.writeFb a b).idx = s.idx := rfl
@[simp] theorem writeFb_dOut (a : Nat) (b : Byte) : (s.writeFb a b).dOut = s.dOut := rfl
@[simp] theorem writeFb_dcOut (a : Nat) (b : Byte) : (s.writeFb a b).dcOut = s.dcOut := rfl
@[simp] theorem writeFb_cs1n (a : Nat) (b : Byte) : (s.writeFb a b).cs1n = s.cs1n := rfl
@[simp] theorem writeFb_cs2n (a : Nat) (b : Byte) : (s.writeFb a b).cs2n = s.cs2n := rfl
@[simp] theorem writeFb_wrOut (a : Nat) (b : Byte) : (s.writeFb a b).wrOut = s.wrOut := rfl
@[simp] theorem writeFb_errOp (a : Nat) (b : Byte) : (s.writeFb a b).errOp = s.errOp := rfl
@[simp] theorem writeFb_errAddr (a : Nat) (b : Byte) : (s.writeFb a b).errAddr = s.errAddr := rfl
@[simp] theorem writeFb_fbRdata (a : Nat) (b : Byte) : (s.writeFb a b).fbRdata = s.fbRdata := rfl
@[simp] theorem writeFb_fb (a : Nat) (b : Byte) : (s.writeFb a b).fb = s.fb.write a b := rfl
@[simp] theorem writeFb_chip1 (a : Nat) (b : Byte) : (s.writeFb a b).chip1 = s.chip1 := rfl
@[simp] theorem writeFb_chip2 (a : Nat) (b : Byte) : (s.writeFb a b).chip2 = s.chip2 := rfl
@[simp] theorem writeFb_host (a : Nat) (b : Byte) : (s.writeFb a b).host = s.host := rfl
@[simp] theorem writeFb_cycle (a : Nat) (b : Byte) : (s.writeFb a b).cycle = s.cycle := rfl
@[simp] theorem writeFb_trace (a : Nat) (b : Byte) : (s.writeFb a b).trace = s.trace := rfl

/-! ### `ResetState` (R220) -/

@[simp] theorem resetBlock_st : s.resetBlock.st = .idle := rfl
@[simp] theorem resetBlock_cnt : s.resetBlock.cnt = 0 := rfl
@[simp] theorem resetBlock_cop : s.resetBlock.cop = 0 := rfl
@[simp] theorem resetBlock_cval : s.resetBlock.cval = 0 := rfl
@[simp] theorem resetBlock_cmsk : s.resetBlock.cmsk = 0 := rfl
@[simp] theorem resetBlock_idx : s.resetBlock.idx = 0 := rfl
@[simp] theorem resetBlock_dOut : s.resetBlock.dOut = 0 := rfl
@[simp] theorem resetBlock_dcOut : s.resetBlock.dcOut = false := rfl
@[simp] theorem resetBlock_cs1n : s.resetBlock.cs1n = true := rfl
@[simp] theorem resetBlock_cs2n : s.resetBlock.cs2n = true := rfl
@[simp] theorem resetBlock_wrOut : s.resetBlock.wrOut = false := rfl
@[simp] theorem resetBlock_errOp : s.resetBlock.errOp = false := rfl
@[simp] theorem resetBlock_errAddr : s.resetBlock.errAddr = false := rfl
@[simp] theorem resetBlock_fbRdata : s.resetBlock.fbRdata = 0 := rfl
@[simp] theorem resetBlock_fb : s.resetBlock.fb = s.fb := rfl
@[simp] theorem resetBlock_chip1 : s.resetBlock.chip1 = s.chip1 := rfl
@[simp] theorem resetBlock_chip2 : s.resetBlock.chip2 = s.chip2 := rfl
@[simp] theorem resetBlock_host : s.resetBlock.host = s.host := rfl
@[simp] theorem resetBlock_cycle : s.resetBlock.cycle = s.cycle := rfl
@[simp] theorem resetBlock_trace : s.resetBlock.trace = s.trace := rfl

/-! ### the clock (R10) -/

@[simp] theorem tick_st (rest : List HostLine) : (s.tick rest).st = s.st := rfl
@[simp] theorem tick_cnt (rest : List HostLine) : (s.tick rest).cnt = s.cnt := rfl
@[simp] theorem tick_cop (rest : List HostLine) : (s.tick rest).cop = s.cop := rfl
@[simp] theorem tick_cval (rest : List HostLine) : (s.tick rest).cval = s.cval := rfl
@[simp] theorem tick_cmsk (rest : List HostLine) : (s.tick rest).cmsk = s.cmsk := rfl
@[simp] theorem tick_idx (rest : List HostLine) : (s.tick rest).idx = s.idx := rfl
@[simp] theorem tick_dOut (rest : List HostLine) : (s.tick rest).dOut = s.dOut := rfl
@[simp] theorem tick_dcOut (rest : List HostLine) : (s.tick rest).dcOut = s.dcOut := rfl
@[simp] theorem tick_cs1n (rest : List HostLine) : (s.tick rest).cs1n = s.cs1n := rfl
@[simp] theorem tick_cs2n (rest : List HostLine) : (s.tick rest).cs2n = s.cs2n := rfl
@[simp] theorem tick_wrOut (rest : List HostLine) : (s.tick rest).wrOut = s.wrOut := rfl
@[simp] theorem tick_errOp (rest : List HostLine) : (s.tick rest).errOp = s.errOp := rfl
@[simp] theorem tick_errAddr (rest : List HostLine) : (s.tick rest).errAddr = s.errAddr := rfl
@[simp] theorem tick_fbRdata (rest : List HostLine) : (s.tick rest).fbRdata = s.fbRdata := rfl
@[simp] theorem tick_fb (rest : List HostLine) : (s.tick rest).fb = s.fb := rfl
@[simp] theorem tick_chip1 (rest : List HostLine) : (s.tick rest).chip1 = s.chip1 := rfl
@[simp] theorem tick_chip2 (rest : List HostLine) : (s.tick rest).chip2 = s.chip2 := rfl
@[simp] theorem tick_host (rest : List HostLine) : (s.tick rest).host = rest := rfl
@[simp] theorem tick_cycle (rest : List HostLine) : (s.tick rest).cycle = s.cycle + 1 := rfl
@[simp] theorem tick_trace (rest : List HostLine) : (s.tick rest).trace = s.trace := rfl

/-! ### `raise ErrOp` (R201) -/

@[simp] theorem raiseErrOp_st : s.raiseErrOp.st = s.st := rfl
@[simp] theorem raiseErrOp_cnt : s.raiseErrOp.cnt = s.cnt := rfl
@[simp] theorem raiseErrOp_cop : s.raiseErrOp.cop = s.cop := rfl
@[simp] theorem raiseErrOp_cval : s.raiseErrOp.cval = s.cval := rfl
@[simp] theorem raiseErrOp_cmsk : s.raiseErrOp.cmsk = s.cmsk := rfl
@[simp] theorem raiseErrOp_idx : s.raiseErrOp.idx = s.idx := rfl
@[simp] theorem raiseErrOp_dOut : s.raiseErrOp.dOut = s.dOut := rfl
@[simp] theorem raiseErrOp_dcOut : s.raiseErrOp.dcOut = s.dcOut := rfl
@[simp] theorem raiseErrOp_cs1n : s.raiseErrOp.cs1n = s.cs1n := rfl
@[simp] theorem raiseErrOp_cs2n : s.raiseErrOp.cs2n = s.cs2n := rfl
@[simp] theorem raiseErrOp_wrOut : s.raiseErrOp.wrOut = s.wrOut := rfl
@[simp] theorem raiseErrOp_errOp : s.raiseErrOp.errOp = true := rfl
@[simp] theorem raiseErrOp_errAddr : s.raiseErrOp.errAddr = s.errAddr := rfl
@[simp] theorem raiseErrOp_fbRdata : s.raiseErrOp.fbRdata = s.fbRdata := rfl
@[simp] theorem raiseErrOp_fb : s.raiseErrOp.fb = s.fb := rfl
@[simp] theorem raiseErrOp_chip1 : s.raiseErrOp.chip1 = s.chip1 := rfl
@[simp] theorem raiseErrOp_chip2 : s.raiseErrOp.chip2 = s.chip2 := rfl
@[simp] theorem raiseErrOp_host : s.raiseErrOp.host = s.host := rfl
@[simp] theorem raiseErrOp_cycle : s.raiseErrOp.cycle = s.cycle := rfl
@[simp] theorem raiseErrOp_trace : s.raiseErrOp.trace = s.trace := rfl

/-! ### `raise ErrAddr` (R201) -/

@[simp] theorem raiseErrAddr_st : s.raiseErrAddr.st = s.st := rfl
@[simp] theorem raiseErrAddr_cnt : s.raiseErrAddr.cnt = s.cnt := rfl
@[simp] theorem raiseErrAddr_cop : s.raiseErrAddr.cop = s.cop := rfl
@[simp] theorem raiseErrAddr_cval : s.raiseErrAddr.cval = s.cval := rfl
@[simp] theorem raiseErrAddr_cmsk : s.raiseErrAddr.cmsk = s.cmsk := rfl
@[simp] theorem raiseErrAddr_idx : s.raiseErrAddr.idx = s.idx := rfl
@[simp] theorem raiseErrAddr_dOut : s.raiseErrAddr.dOut = s.dOut := rfl
@[simp] theorem raiseErrAddr_dcOut : s.raiseErrAddr.dcOut = s.dcOut := rfl
@[simp] theorem raiseErrAddr_cs1n : s.raiseErrAddr.cs1n = s.cs1n := rfl
@[simp] theorem raiseErrAddr_cs2n : s.raiseErrAddr.cs2n = s.cs2n := rfl
@[simp] theorem raiseErrAddr_wrOut : s.raiseErrAddr.wrOut = s.wrOut := rfl
@[simp] theorem raiseErrAddr_errOp : s.raiseErrAddr.errOp = s.errOp := rfl
@[simp] theorem raiseErrAddr_errAddr : s.raiseErrAddr.errAddr = true := rfl
@[simp] theorem raiseErrAddr_fbRdata : s.raiseErrAddr.fbRdata = s.fbRdata := rfl
@[simp] theorem raiseErrAddr_fb : s.raiseErrAddr.fb = s.fb := rfl
@[simp] theorem raiseErrAddr_chip1 : s.raiseErrAddr.chip1 = s.chip1 := rfl
@[simp] theorem raiseErrAddr_chip2 : s.raiseErrAddr.chip2 = s.chip2 := rfl
@[simp] theorem raiseErrAddr_host : s.raiseErrAddr.host = s.host := rfl
@[simp] theorem raiseErrAddr_cycle : s.raiseErrAddr.cycle = s.cycle := rfl
@[simp] theorem raiseErrAddr_trace : s.raiseErrAddr.trace = s.trace := rfl

/-! ### `EnterItem` (R102) -/

@[simp] theorem enterItem_st (op : BitVec 3) (v : Byte) (m : Mask) (i : Nat) : (s.enterItem op v m i).st = .s1 := rfl
@[simp] theorem enterItem_cnt (op : BitVec 3) (v : Byte) (m : Mask) (i : Nat) : (s.enterItem op v m i).cnt = s.cnt := rfl
@[simp] theorem enterItem_cop (op : BitVec 3) (v : Byte) (m : Mask) (i : Nat) : (s.enterItem op v m i).cop = s.cop := rfl
@[simp] theorem enterItem_cval (op : BitVec 3) (v : Byte) (m : Mask) (i : Nat) : (s.enterItem op v m i).cval = s.cval := rfl
@[simp] theorem enterItem_cmsk (op : BitVec 3) (v : Byte) (m : Mask) (i : Nat) : (s.enterItem op v m i).cmsk = s.cmsk := rfl
@[simp] theorem enterItem_idx (op : BitVec 3) (v : Byte) (m : Mask) (i : Nat) : (s.enterItem op v m i).idx = s.idx := rfl
@[simp] theorem enterItem_dOut (op : BitVec 3) (v : Byte) (m : Mask) (i : Nat) : (s.enterItem op v m i).dOut = s.sourceByte (item op v m i).src := rfl
@[simp] theorem enterItem_dcOut (op : BitVec 3) (v : Byte) (m : Mask) (i : Nat) : (s.enterItem op v m i).dcOut = s.dcOut := rfl
@[simp] theorem enterItem_cs1n (op : BitVec 3) (v : Byte) (m : Mask) (i : Nat) : (s.enterItem op v m i).cs1n = s.cs1n := rfl
@[simp] theorem enterItem_cs2n (op : BitVec 3) (v : Byte) (m : Mask) (i : Nat) : (s.enterItem op v m i).cs2n = s.cs2n := rfl
@[simp] theorem enterItem_wrOut (op : BitVec 3) (v : Byte) (m : Mask) (i : Nat) : (s.enterItem op v m i).wrOut = s.wrOut := rfl
@[simp] theorem enterItem_errOp (op : BitVec 3) (v : Byte) (m : Mask) (i : Nat) : (s.enterItem op v m i).errOp = s.errOp := rfl
@[simp] theorem enterItem_errAddr (op : BitVec 3) (v : Byte) (m : Mask) (i : Nat) : (s.enterItem op v m i).errAddr = s.errAddr := rfl
@[simp] theorem enterItem_fbRdata (op : BitVec 3) (v : Byte) (m : Mask) (i : Nat) : (s.enterItem op v m i).fbRdata = s.fbRdata := rfl
@[simp] theorem enterItem_fb (op : BitVec 3) (v : Byte) (m : Mask) (i : Nat) : (s.enterItem op v m i).fb = s.fb := rfl
@[simp] theorem enterItem_chip1 (op : BitVec 3) (v : Byte) (m : Mask) (i : Nat) : (s.enterItem op v m i).chip1 = s.chip1 := rfl
@[simp] theorem enterItem_chip2 (op : BitVec 3) (v : Byte) (m : Mask) (i : Nat) : (s.enterItem op v m i).chip2 = s.chip2 := rfl
@[simp] theorem enterItem_host (op : BitVec 3) (v : Byte) (m : Mask) (i : Nat) : (s.enterItem op v m i).host = s.host := rfl
@[simp] theorem enterItem_cycle (op : BitVec 3) (v : Byte) (m : Mask) (i : Nat) : (s.enterItem op v m i).cycle = s.cycle := rfl
@[simp] theorem enterItem_trace (op : BitVec 3) (v : Byte) (m : Mask) (i : Nat) : (s.enterItem op v m i).trace = s.trace := rfl

/-! ### storing a request (R103) -/

@[simp] theorem storeRequest_st (op : BitVec 3) (m : Mask) (v : Byte) : (s.storeRequest op m v).st = s.st := rfl
@[simp] theorem storeRequest_cnt (op : BitVec 3) (m : Mask) (v : Byte) : (s.storeRequest op m v).cnt = s.cnt := rfl
@[simp] theorem storeRequest_cop (op : BitVec 3) (m : Mask) (v : Byte) : (s.storeRequest op m v).cop = op := rfl
@[simp] theorem storeRequest_cval (op : BitVec 3) (m : Mask) (v : Byte) : (s.storeRequest op m v).cval = v := rfl
@[simp] theorem storeRequest_cmsk (op : BitVec 3) (m : Mask) (v : Byte) : (s.storeRequest op m v).cmsk = m := rfl
@[simp] theorem storeRequest_idx (op : BitVec 3) (m : Mask) (v : Byte) : (s.storeRequest op m v).idx = 0 := rfl
@[simp] theorem storeRequest_dOut (op : BitVec 3) (m : Mask) (v : Byte) : (s.storeRequest op m v).dOut = s.dOut := rfl
@[simp] theorem storeRequest_dcOut (op : BitVec 3) (m : Mask) (v : Byte) : (s.storeRequest op m v).dcOut = s.dcOut := rfl
@[simp] theorem storeRequest_cs1n (op : BitVec 3) (m : Mask) (v : Byte) : (s.storeRequest op m v).cs1n = s.cs1n := rfl
@[simp] theorem storeRequest_cs2n (op : BitVec 3) (m : Mask) (v : Byte) : (s.storeRequest op m v).cs2n = s.cs2n := rfl
@[simp] theorem storeRequest_wrOut (op : BitVec 3) (m : Mask) (v : Byte) : (s.storeRequest op m v).wrOut = s.wrOut := rfl
@[simp] theorem storeRequest_errOp (op : BitVec 3) (m : Mask) (v : Byte) : (s.storeRequest op m v).errOp = s.errOp := rfl
@[simp] theorem storeRequest_errAddr (op : BitVec 3) (m : Mask) (v : Byte) : (s.storeRequest op m v).errAddr = s.errAddr := rfl
@[simp] theorem storeRequest_fbRdata (op : BitVec 3) (m : Mask) (v : Byte) : (s.storeRequest op m v).fbRdata = s.fbRdata := rfl
@[simp] theorem storeRequest_fb (op : BitVec 3) (m : Mask) (v : Byte) : (s.storeRequest op m v).fb = s.fb := rfl
@[simp] theorem storeRequest_chip1 (op : BitVec 3) (m : Mask) (v : Byte) : (s.storeRequest op m v).chip1 = s.chip1 := rfl
@[simp] theorem storeRequest_chip2 (op : BitVec 3) (m : Mask) (v : Byte) : (s.storeRequest op m v).chip2 = s.chip2 := rfl
@[simp] theorem storeRequest_host (op : BitVec 3) (m : Mask) (v : Byte) : (s.storeRequest op m v).host = s.host := rfl
@[simp] theorem storeRequest_cycle (op : BitVec 3) (m : Mask) (v : Byte) : (s.storeRequest op m v).cycle = s.cycle := rfl
@[simp] theorem storeRequest_trace (op : BitVec 3) (m : Mask) (v : Byte) : (s.storeRequest op m v).trace = s.trace := rfl

/-! ### S1 to S2 (R104) -/

@[simp] theorem seqS1_st : s.seqS1.st = .s2 := rfl
@[simp] theorem seqS1_cnt : s.seqS1.cnt = s.cnt := rfl
@[simp] theorem seqS1_cop : s.seqS1.cop = s.cop := rfl
@[simp] theorem seqS1_cval : s.seqS1.cval = s.cval := rfl
@[simp] theorem seqS1_cmsk : s.seqS1.cmsk = s.cmsk := rfl
@[simp] theorem seqS1_idx : s.seqS1.idx = s.idx := rfl
@[simp] theorem seqS1_dOut : s.seqS1.dOut = s.dOut := rfl
@[simp] theorem seqS1_dcOut : s.seqS1.dcOut = s.item.dc := rfl
@[simp] theorem seqS1_cs1n : s.seqS1.cs1n = !maskChip1 s.item.mask := rfl
@[simp] theorem seqS1_cs2n : s.seqS1.cs2n = !maskChip2 s.item.mask := rfl
@[simp] theorem seqS1_wrOut : s.seqS1.wrOut = false := rfl
@[simp] theorem seqS1_errOp : s.seqS1.errOp = s.errOp := rfl
@[simp] theorem seqS1_errAddr : s.seqS1.errAddr = s.errAddr := rfl
@[simp] theorem seqS1_fbRdata : s.seqS1.fbRdata = s.fbRdata := rfl
@[simp] theorem seqS1_fb : s.seqS1.fb = s.fb := rfl
@[simp] theorem seqS1_chip1 : s.seqS1.chip1 = s.chip1 := rfl
@[simp] theorem seqS1_chip2 : s.seqS1.chip2 = s.chip2 := rfl
@[simp] theorem seqS1_host : s.seqS1.host = s.host := rfl
@[simp] theorem seqS1_cycle : s.seqS1.cycle = s.cycle := rfl
@[simp] theorem seqS1_trace : s.seqS1.trace = s.trace := rfl

/-! ### S2 to S3 (R105) -/

@[simp] theorem seqS2_st : s.seqS2.st = .s3 := rfl
@[simp] theorem seqS2_cnt : s.seqS2.cnt = s.cnt := rfl
@[simp] theorem seqS2_cop : s.seqS2.cop = s.cop := rfl
@[simp] theorem seqS2_cval : s.seqS2.cval = s.cval := rfl
@[simp] theorem seqS2_cmsk : s.seqS2.cmsk = s.cmsk := rfl
@[simp] theorem seqS2_idx : s.seqS2.idx = s.idx := rfl
@[simp] theorem seqS2_dOut : s.seqS2.dOut = s.dOut := rfl
@[simp] theorem seqS2_dcOut : s.seqS2.dcOut = s.dcOut := rfl
@[simp] theorem seqS2_cs1n : s.seqS2.cs1n = s.cs1n := rfl
@[simp] theorem seqS2_cs2n : s.seqS2.cs2n = s.cs2n := rfl
@[simp] theorem seqS2_wrOut : s.seqS2.wrOut = true := rfl
@[simp] theorem seqS2_errOp : s.seqS2.errOp = s.errOp := rfl
@[simp] theorem seqS2_errAddr : s.seqS2.errAddr = s.errAddr := rfl
@[simp] theorem seqS2_fbRdata : s.seqS2.fbRdata = s.fbRdata := rfl
@[simp] theorem seqS2_fb : s.seqS2.fb = s.fb := rfl
@[simp] theorem seqS2_chip1 : s.seqS2.chip1 = s.chip1 := rfl
@[simp] theorem seqS2_chip2 : s.seqS2.chip2 = s.chip2 := rfl
@[simp] theorem seqS2_host : s.seqS2.host = s.host := rfl
@[simp] theorem seqS2_cycle : s.seqS2.cycle = s.cycle := rfl
@[simp] theorem seqS2_trace : s.seqS2.trace = s.trace ++ s.latchEvents := rfl

/-! ### S3 to S4 (R106) -/

@[simp] theorem seqS3_st (n : Nat) : (State.seqS3 n s).st = .s4 := rfl
@[simp] theorem seqS3_cnt (n : Nat) : (State.seqS3 n s).cnt = n := rfl
@[simp] theorem seqS3_cop (n : Nat) : (State.seqS3 n s).cop = s.cop := rfl
@[simp] theorem seqS3_cval (n : Nat) : (State.seqS3 n s).cval = s.cval := rfl
@[simp] theorem seqS3_cmsk (n : Nat) : (State.seqS3 n s).cmsk = s.cmsk := rfl
@[simp] theorem seqS3_idx (n : Nat) : (State.seqS3 n s).idx = s.idx := rfl
@[simp] theorem seqS3_dOut (n : Nat) : (State.seqS3 n s).dOut = s.dOut := rfl
@[simp] theorem seqS3_dcOut (n : Nat) : (State.seqS3 n s).dcOut = s.dcOut := rfl
@[simp] theorem seqS3_cs1n (n : Nat) : (State.seqS3 n s).cs1n = s.cs1n := rfl
@[simp] theorem seqS3_cs2n (n : Nat) : (State.seqS3 n s).cs2n = s.cs2n := rfl
@[simp] theorem seqS3_wrOut (n : Nat) : (State.seqS3 n s).wrOut = s.wrOut := rfl
@[simp] theorem seqS3_errOp (n : Nat) : (State.seqS3 n s).errOp = s.errOp := rfl
@[simp] theorem seqS3_errAddr (n : Nat) : (State.seqS3 n s).errAddr = s.errAddr := rfl
@[simp] theorem seqS3_fbRdata (n : Nat) : (State.seqS3 n s).fbRdata = s.fbRdata := rfl
@[simp] theorem seqS3_fb (n : Nat) : (State.seqS3 n s).fb = s.fb := rfl
@[simp] theorem seqS3_chip1 (n : Nat) : (State.seqS3 n s).chip1 = s.chip1 := rfl
@[simp] theorem seqS3_chip2 (n : Nat) : (State.seqS3 n s).chip2 = s.chip2 := rfl
@[simp] theorem seqS3_host (n : Nat) : (State.seqS3 n s).host = s.host := rfl
@[simp] theorem seqS3_cycle (n : Nat) : (State.seqS3 n s).cycle = s.cycle := rfl
@[simp] theorem seqS3_trace (n : Nat) : (State.seqS3 n s).trace = s.trace := rfl

/-! ### S5 to S6 (R108) -/

@[simp] theorem seqS5_st (n : Nat) : (State.seqS5 n s).st = .s6 := rfl
@[simp] theorem seqS5_cnt (n : Nat) : (State.seqS5 n s).cnt = n := rfl
@[simp] theorem seqS5_cop (n : Nat) : (State.seqS5 n s).cop = s.cop := rfl
@[simp] theorem seqS5_cval (n : Nat) : (State.seqS5 n s).cval = s.cval := rfl
@[simp] theorem seqS5_cmsk (n : Nat) : (State.seqS5 n s).cmsk = s.cmsk := rfl
@[simp] theorem seqS5_idx (n : Nat) : (State.seqS5 n s).idx = s.idx := rfl
@[simp] theorem seqS5_dOut (n : Nat) : (State.seqS5 n s).dOut = s.dOut := rfl
@[simp] theorem seqS5_dcOut (n : Nat) : (State.seqS5 n s).dcOut = s.dcOut := rfl
@[simp] theorem seqS5_cs1n (n : Nat) : (State.seqS5 n s).cs1n = s.cs1n := rfl
@[simp] theorem seqS5_cs2n (n : Nat) : (State.seqS5 n s).cs2n = s.cs2n := rfl
@[simp] theorem seqS5_wrOut (n : Nat) : (State.seqS5 n s).wrOut = s.wrOut := rfl
@[simp] theorem seqS5_errOp (n : Nat) : (State.seqS5 n s).errOp = s.errOp := rfl
@[simp] theorem seqS5_errAddr (n : Nat) : (State.seqS5 n s).errAddr = s.errAddr := rfl
@[simp] theorem seqS5_fbRdata (n : Nat) : (State.seqS5 n s).fbRdata = s.fbRdata := rfl
@[simp] theorem seqS5_fb (n : Nat) : (State.seqS5 n s).fb = s.fb := rfl
@[simp] theorem seqS5_chip1 (n : Nat) : (State.seqS5 n s).chip1 = s.chip1 := rfl
@[simp] theorem seqS5_chip2 (n : Nat) : (State.seqS5 n s).chip2 = s.chip2 := rfl
@[simp] theorem seqS5_host (n : Nat) : (State.seqS5 n s).host = s.host := rfl
@[simp] theorem seqS5_cycle (n : Nat) : (State.seqS5 n s).cycle = s.cycle := rfl
@[simp] theorem seqS5_trace (n : Nat) : (State.seqS5 n s).trace = s.trace := rfl

/-! ### a latch edge at the chips (R172) -/

@[simp] theorem atSelectedChips_st (f : Chip → Chip) : (s.atSelectedChips f).st = s.st := rfl
@[simp] theorem atSelectedChips_cnt (f : Chip → Chip) : (s.atSelectedChips f).cnt = s.cnt := rfl
@[simp] theorem atSelectedChips_cop (f : Chip → Chip) : (s.atSelectedChips f).cop = s.cop := rfl
@[simp] theorem atSelectedChips_cval (f : Chip → Chip) : (s.atSelectedChips f).cval = s.cval := rfl
@[simp] theorem atSelectedChips_cmsk (f : Chip → Chip) : (s.atSelectedChips f).cmsk = s.cmsk := rfl
@[simp] theorem atSelectedChips_idx (f : Chip → Chip) : (s.atSelectedChips f).idx = s.idx := rfl
@[simp] theorem atSelectedChips_dOut (f : Chip → Chip) : (s.atSelectedChips f).dOut = s.dOut := rfl
@[simp] theorem atSelectedChips_dcOut (f : Chip → Chip) : (s.atSelectedChips f).dcOut = s.dcOut := rfl
@[simp] theorem atSelectedChips_cs1n (f : Chip → Chip) : (s.atSelectedChips f).cs1n = s.cs1n := rfl
@[simp] theorem atSelectedChips_cs2n (f : Chip → Chip) : (s.atSelectedChips f).cs2n = s.cs2n := rfl
@[simp] theorem atSelectedChips_wrOut (f : Chip → Chip) : (s.atSelectedChips f).wrOut = s.wrOut := rfl
@[simp] theorem atSelectedChips_errOp (f : Chip → Chip) : (s.atSelectedChips f).errOp = s.errOp := rfl
@[simp] theorem atSelectedChips_errAddr (f : Chip → Chip) : (s.atSelectedChips f).errAddr = s.errAddr := rfl
@[simp] theorem atSelectedChips_fbRdata (f : Chip → Chip) : (s.atSelectedChips f).fbRdata = s.fbRdata := rfl
@[simp] theorem atSelectedChips_fb (f : Chip → Chip) : (s.atSelectedChips f).fb = s.fb := rfl
@[simp] theorem atSelectedChips_chip1 (f : Chip → Chip) : (s.atSelectedChips f).chip1 = if s.cs1n then s.chip1 else f s.chip1 := rfl
@[simp] theorem atSelectedChips_chip2 (f : Chip → Chip) : (s.atSelectedChips f).chip2 = if s.cs2n then s.chip2 else f s.chip2 := rfl
@[simp] theorem atSelectedChips_host (f : Chip → Chip) : (s.atSelectedChips f).host = s.host := rfl
@[simp] theorem atSelectedChips_cycle (f : Chip → Chip) : (s.atSelectedChips f).cycle = s.cycle := rfl
@[simp] theorem atSelectedChips_trace (f : Chip → Chip) : (s.atSelectedChips f).trace = s.trace := rfl

end Sys2Proof.Machine
end

