-- ==== Sys2Proof/Laws/Effects.lean ====
section
/-! SUPPORT. What each shared operation can do, said once: acceptance of a request, a framebuffer action, a wire word
at the chips, and each edge of the sequencer. -/

namespace Sys2Proof.Machine

open Sys2Proof

/-! ### Requests -/

theorem acceptOperation_idle {s : State} (h : s.st = .idle) (op : BitVec 3) (m : Mask) (v : Byte) :
    acceptOperation op m v s = .next ((s.storeRequest op m v).enterItem op v m 0) := if_pos h

theorem acceptOperation_busy {s : State} (h : s.st ≠ .idle) (op : BitVec 3) (m : Mask) (v : Byte) :
    acceptOperation op m v s = .next s := if_neg h

theorem acceptReserved_idle {s : State} (h : s.st = .idle) : acceptReserved s = .next s.raiseErrOp := if_pos h

theorem acceptReserved_busy {s : State} (h : s.st ≠ .idle) : acceptReserved s = .next s := if_neg h

/-- The state after a request is accepted in `IDLE` (R103). -/
def State.requestNext (w : BitVec 13) (s : State) : State :=
  if (requestOp w).toNat ≤ 5 then
    (s.storeRequest (requestOp w) (requestMask w) (requestValue w)).enterItem
      (requestOp w) (requestValue w) (requestMask w) 0
  else s.raiseErrOp

/-- R103: what accepting a request does, by its opcode. -/
theorem exec_request {s : State} (h : s.st = .idle) (w : BitVec 13) :
    exec (decode (.request w)) s = .next (s.requestNext w) := by
  rw [← requestWord_fields w, decode_request, State.requestNext]
  simp only [requestOp_word, requestMask_word, requestValue_word]
  rcases opcode_cases (requestOp w) with e | e | e | e | e | e | e | e <;> rw [e]
  · exact acceptOperation_idle h 0 _ _
  · exact acceptOperation_idle h 1 _ _
  · exact acceptOperation_idle h 2 _ _
  · exact acceptOperation_idle h 3 _ _
  · exact acceptOperation_idle h 4 _ _
  · exact acceptOperation_idle h 5 _ _
  · exact acceptReserved_idle h
  · exact acceptReserved_idle h

/-! ### Framebuffer actions -/

/-- The framebuffer after a cycle's action (R160). -/
def State.fbAfter (inp : Inputs) (s : State) : Memory :=
  if inp.fbEn && inp.fbWe && fbInRange inp.fbAddr then s.fb.write inp.fbAddr.toNat inp.fbWdata else s.fb

/-- `fb_rdata` after a cycle's action (R161). -/
def State.fbRdataAfter (inp : Inputs) (s : State) : Byte :=
  if inp.fbEn && !inp.fbWe then
    if fbInRange inp.fbAddr then s.readFb inp.fbAddr.toNat else 0x00
  else s.fbRdata

/-- `err_addr` after a cycle's action (R160, R161). -/
def State.errAddrAfter (inp : Inputs) (s : State) : Bool :=
  s.errAddr || (inp.fbEn && !fbInRange inp.fbAddr)

/-- R100, R160 to R162: what a framebuffer action does; it writes these three fields and no other. -/
theorem exec_action (inp : Inputs) (s : State) :
    exec (decode (.action inp.actionWord)) s =
      .next { s with fb := s.fbAfter inp, fbRdata := s.fbRdataAfter inp, errAddr := s.errAddrAfter inp } := by
  obtain ⟨_, _, _, en, we, a, b⟩ := inp
  simp only [Inputs.actionWord, decode_action, State.fbAfter, State.fbRdataAfter, State.errAddrAfter]
  cases en <;> cases we
  · simp [exec, execFbnop]
  · simp [exec, execFbnop]
  · by_cases ha : fbInRange a = true <;> simp [exec, execFbr, ha, State.raiseErrAddr]
  · by_cases ha : fbInRange a = true <;> simp [exec, execFbw, ha, State.raiseErrAddr, State.writeFb]

/-! ### Wire words -/

/-- R172 to R180: what a wire word does; each selected chip latches it and nothing else changes. -/
theorem exec_wire (dc : Bool) (d : Byte) (s : State) :
    exec (decode (.wire (wireWordOf dc d))) s = .next (s.atSelectedChips (Chip.latch dc d)) := by
  have key : ∀ f : Chip → Chip, Chip.latch dc d = f →
      Host.Outcome.next (s.atSelectedChips f) =
        (Host.Outcome.next (s.atSelectedChips (Chip.latch dc d)) : Result) := fun f h => by rw [h]
  unfold Chip.latch at key ⊢
  rw [decode_wire] at *
  cases dc
  · simp only [Bool.false_eq_true, if_false, decodeCommand] at key ⊢
    split_ifs <;> rfl
  · rfl

/-! ### The sequencer -/

/-- S4 and S6 while the counter has more than one cycle to go (R107, R109). -/
theorem countDown_of_pos {n c : Nat} (h : c ≠ 0) : countDown n c = c - 1 := if_neg h

theorem seqS4_last {s : State} (n : Nat) (h : s.cnt = 1) :
    s.seqS4 n = { s with cnt := 0, wrOut := false, st := .s5 } := if_pos h

theorem seqS4_more {s : State} (n : Nat) (h : s.cnt ≠ 1) : s.seqS4 n = { s with cnt := countDown n s.cnt } :=
  if_neg h

theorem seqS6_last {s : State} (n : Nat) (h : s.cnt = 1) : s.seqS6 n = s.nextItem := if_pos h

theorem seqS6_more {s : State} (n : Nat) (h : s.cnt ≠ 1) : s.seqS6 n = { s with cnt := countDown n s.cnt } :=
  if_neg h

theorem nextItem_more {s : State} (h : s.idx.toNat + 1 < itemCount s.cop) :
    s.nextItem =
      { s.enterItem s.cop s.cval s.cmsk (s.idx.toNat + 1) with cnt := 0, idx := s.idx + 1 } := if_pos h

theorem nextItem_done {s : State} (h : ¬ s.idx.toNat + 1 < itemCount s.cop) :
    s.nextItem = { s with cnt := 0, st := .idle } := if_neg h

/-- The state after the sequencer's edge (R103 to R109). -/
def State.seqNext (n : Nat) (inp : Inputs) (s : State) : State :=
  if s.st = .idle then
    if inp.reqValid then s.requestNext inp.reqWord else s
  else s.seqBusy n

theorem seqEdge_eq (n : Nat) (inp : Inputs) (s : State) : s.seqEdge n inp = .next (s.seqNext n inp) := by
  unfold State.seqEdge State.seqNext
  split
  · next h => split
              · exact exec_request h _
              · rfl
  · rfl

end Sys2Proof.Machine
end

