-- ==== Sys2Proof/Laws/Memory.lean ====
section
/-! SUPPORT. The laws of a byte memory: read after write, every operation keeps the canonical form, and equal reads
of canonical memories are equal data. -/

namespace Sys2Proof.Machine

open Sys2Proof

theorem find?_write_self (m : Memory) (a : Nat) (b : Byte) : (Memory.write m a b).find? a = some b := by
  induction m with
  | nil => simp [Memory.write, Memory.find?]
  | cons kc rest ih =>
    obtain ⟨k, c⟩ := kc
    simp only [Memory.write]
    split
    · simp [Memory.find?]
    · split
      · simp [Memory.find?]
      · rename_i hne
        simp [Memory.find?, Ne.symm hne, ih]

theorem find?_write_other (m : Memory) {a x : Nat} (b : Byte) (h : x ≠ a) :
    (Memory.write m a b).find? x = m.find? x := by
  induction m with
  | nil => simp [Memory.write, Memory.find?, Ne.symm h]
  | cons kc rest ih =>
    obtain ⟨k, c⟩ := kc
    simp only [Memory.write]
    split
    · simp [Memory.find?, Ne.symm h]
    · split
      · rename_i hk
        simp [Memory.find?, Ne.symm h, ← hk]
      · simp [Memory.find?, ih]

/-- Read after write, in one equation. -/
theorem find?_write (m : Memory) (a x : Nat) (b : Byte) :
    (Memory.write m a b).find? x = if x = a then some b else m.find? x := by
  split
  · next h => rw [h, find?_write_self]
  · next h => exact find?_write_other m b h

theorem wfFrom_cons (lo bound k : Nat) (c : Byte) (rest : Memory) :
    Memory.wfFrom lo bound ((k, c) :: rest) = true ↔
      lo ≤ k ∧ k < bound ∧ Memory.wfFrom (k + 1) bound rest = true := by
  simp [Memory.wfFrom, and_assoc]

theorem wfFrom_mono {lo lo' bound : Nat} {m : Memory} (h : Memory.wfFrom lo bound m = true) (hl : lo' ≤ lo) :
    Memory.wfFrom lo' bound m = true := by
  cases m with
  | nil => rfl
  | cons kc rest =>
    obtain ⟨k, c⟩ := kc
    rw [wfFrom_cons] at h ⊢
    exact ⟨hl.trans h.1, h.2⟩

theorem wfFrom_write {lo bound a : Nat} {m : Memory} {b : Byte} (h : Memory.wfFrom lo bound m = true)
    (hlo : lo ≤ a) (ha : a < bound) : Memory.wfFrom lo bound (Memory.write m a b) = true := by
  induction m generalizing lo with
  | nil => simp [Memory.write, Memory.wfFrom, hlo, ha]
  | cons kc rest ih =>
    obtain ⟨k, c⟩ := kc
    rw [wfFrom_cons] at h
    simp only [Memory.write]
    split
    · next hk => exact (wfFrom_cons ..).2 ⟨hlo, ha, (wfFrom_cons ..).2 ⟨hk, h.2⟩⟩
    · split
      · next hk => subst hk; exact (wfFrom_cons ..).2 ⟨hlo, ha, h.2.2⟩
      · next h1 h2 => exact (wfFrom_cons ..).2 ⟨h.1, h.2.1, ih h.2.2 (by omega)⟩

/-- Writing keeps the canonical form. -/
theorem wf_write {bound a : Nat} {m : Memory} {b : Byte} (h : Memory.wf bound m = true) (ha : a < bound) :
    Memory.wf bound (Memory.write m a b) = true :=
  wfFrom_write h (Nat.zero_le a) ha

/-- The empty memory is canonical. -/
@[simp] theorem wf_nil (bound : Nat) : Memory.wf bound [] = true := rfl

/-- A canonical memory lists nothing below where it starts. -/
theorem find?_below {lo bound : Nat} {m : Memory} (h : Memory.wfFrom lo bound m = true) {a : Nat} (ha : a < lo) :
    m.find? a = none := by
  induction m generalizing lo with
  | nil => rfl
  | cons kc rest ih =>
    obtain ⟨k, c⟩ := kc
    rw [wfFrom_cons] at h
    have hk : k ≠ a := by omega
    simp [Memory.find?, hk, ih h.2.2 (by omega)]

/-- Two canonical memories that read alike are the same data. -/
theorem memory_ext {lo bound : Nat} {m m' : Memory} (h : Memory.wfFrom lo bound m = true)
    (h' : Memory.wfFrom lo bound m' = true) (hr : ∀ a, m.find? a = m'.find? a) : m = m' := by
  induction m generalizing lo m' with
  | nil =>
    cases m' with
    | nil => rfl
    | cons kc rest =>
      obtain ⟨k, c⟩ := kc
      simpa [Memory.find?] using hr k
  | cons kc rest ih =>
    obtain ⟨k, c⟩ := kc
    rw [wfFrom_cons] at h
    cases m' with
    | nil => simpa [Memory.find?] using hr k
    | cons kc' rest' =>
      obtain ⟨k', c'⟩ := kc'
      rw [wfFrom_cons] at h'
      have hkk : k = k' := by
        rcases Nat.lt_trichotomy k k' with hlt | heq | hlt
        · have := hr k
          simp [Memory.find?, Nat.ne_of_gt hlt, find?_below h'.2.2 (show k < k' + 1 by omega)] at this
        · exact heq
        · have := hr k'
          simp [Memory.find?, Nat.ne_of_gt hlt, find?_below h.2.2 (show k' < k + 1 by omega)] at this
      subst hkk
      have hc : c = c' := by simpa [Memory.find?] using hr k
      subst hc
      congr 1
      refine ih h.2.2 h'.2.2 fun a => ?_
      rcases eq_or_ne k a with rfl | hne
      · rw [find?_below h.2.2 (Nat.lt_succ_self _), find?_below h'.2.2 (Nat.lt_succ_self _)]
      · simpa [Memory.find?, hne] using hr a

/-! ### The framebuffer read -/

@[simp] theorem readFb_writeFb (s : State) (a x : Nat) (b : Byte) :
    (s.writeFb a b).readFb x = if x = a then b else s.readFb x := by
  simp only [State.readFb, State.writeFb, find?_write]
  split <;> simp

/-- The framebuffer read depends on the framebuffer alone. -/
theorem readFb_congr {s t : State} (h : s.fb = t.fb) (a : Nat) : s.readFb a = t.readFb a := by
  simp [State.readFb, h]

/-- The source byte depends on the framebuffer alone. -/
theorem sourceByte_congr {s t : State} (h : s.fb = t.fb) (src : Src) : s.sourceByte src = t.sourceByte src := by
  cases src with
  | imm b => rfl
  | fb a => exact readFb_congr h a

end Sys2Proof.Machine
end

