-- ==== Sys2Proof/Laws/Step.lean ====
section
/-! SUPPORT. What one step can do, said once (R100): every step answers a next state, and each of its fields is given
by the part of the cycle that owns it. -/

namespace Sys2Proof.Machine

open Sys2Proof

/-- A chip after this cycle's edge (R172): it latches the word on the pins if the strobe rises and its select
is low. -/
def State.chipAfter (s : State) (selectN : Bool) (c : Chip) : Chip :=
  if s.strobeRises && !selectN then c.latch s.dcOut s.dOut else c

/-- The state after one cycle without reset. -/
def State.cycleNext (n : Nat) (s : State) : State :=
  { s.seqNext n s.inputs with
    chip1 := s.chipAfter s.cs1n s.chip1
    chip2 := s.chipAfter s.cs2n s.chip2
    fb := s.fbAfter s.inputs
    fbRdata := s.fbRdataAfter s.inputs
    errAddr := s.errAddrAfter s.inputs
    host := s.hostAfter
    cycle := s.cycle + 1 }

theorem chipEdge_eq (s : State) :
    s.chipEdge =
      .next { s with chip1 := s.chipAfter s.cs1n s.chip1, chip2 := s.chipAfter s.cs2n s.chip2 } := by
  unfold State.chipEdge State.chipAfter
  cases s.strobeRises
  · rfl
  · simp only [if_true, State.wireWord, exec_wire, State.atSelectedChips]
    cases s.cs1n <;> cases s.cs2n <;> rfl

/-- What the sequencer's edge leaves alone (R100). -/
structure State.SeqFrame (s t : State) : Prop where
  fb : t.fb = s.fb
  fbRdata : t.fbRdata = s.fbRdata
  errAddr : t.errAddr = s.errAddr
  chip1 : t.chip1 = s.chip1
  chip2 : t.chip2 = s.chip2
  host : t.host = s.host
  cycle : t.cycle = s.cycle

theorem seqNext_frame (n : Nat) (inp : Inputs) (s : State) : s.SeqFrame (s.seqNext n inp) := by
  unfold State.seqNext State.requestNext State.seqBusy State.seqS4 State.seqS6 State.nextItem
  split
  · split
    · split <;> exact ⟨rfl, rfl, rfl, rfl, rfl, rfl, rfl⟩
    · exact ⟨rfl, rfl, rfl, rfl, rfl, rfl, rfl⟩
  · split <;> (try split) <;> (try split) <;> exact ⟨rfl, rfl, rfl, rfl, rfl, rfl, rfl⟩

/-- The sequencer reads no chip (R100). -/
theorem seqNext_chips (n : Nat) (inp : Inputs) (s : State) (c₁ c₂ : Chip) :
    State.seqNext n inp { s with chip1 := c₁, chip2 := c₂ } =
      { s.seqNext n inp with chip1 := c₁, chip2 := c₂ } := by
  unfold State.seqNext State.requestNext State.seqBusy State.seqS4 State.seqS6 State.nextItem
  dsimp only
  split
  · split
    · split <;> rfl
    · rfl
  · split <;> (try split) <;> (try split) <;> rfl

theorem fbAfter_congr {s t : State} (inp : Inputs) (h : t.fb = s.fb) : t.fbAfter inp = s.fbAfter inp := by
  simp only [State.fbAfter, h]

theorem fbRdataAfter_congr {s t : State} (inp : Inputs) (h : t.fb = s.fb) (h' : t.fbRdata = s.fbRdata) :
    t.fbRdataAfter inp = s.fbRdataAfter inp := by
  simp only [State.fbRdataAfter, h', readFb_congr h]

theorem errAddrAfter_congr {s t : State} (inp : Inputs) (h : t.errAddr = s.errAddr) :
    t.errAddrAfter inp = s.errAddrAfter inp := by
  simp only [State.errAddrAfter, h]

/-- A cycle with `rst = 1` is the reset (R220). -/
theorem cycleStep_reset (n : Nat) {s : State} (h : s.inputs.rst = true) :
    cycleStep n s = .next (s.resetBlock.tick s.hostAfter) := by
  rw [cycleStep, if_pos h]

/-- A cycle with `rst = 0`: each field is given by the part of the cycle that owns it (R100, R172). -/
theorem cycleStep_run (n : Nat) {s : State} (h : s.inputs.rst = false) :
    cycleStep n s = .next (s.cycleNext n) := by
  have hf := seqNext_frame n s.inputs s
  rw [cycleStep, if_neg (by simp [h]), chipEdge_eq]
  simp only [andThen, seqEdge_eq, seqNext_chips, State.fbEdge, exec_action, State.tick, State.cycleNext]
  rw [fbAfter_congr (s := s), fbRdataAfter_congr (s := s), errAddrAfter_congr (s := s), hf.cycle]
  exacts [hf.errAddr, hf.fb, hf.fbRdata, hf.fb]

/-- One step of the machine, in one equation. -/
theorem step_eq (s : State) :
    step s =
      .next (if s.inputs.rst then s.resetBlock.tick s.hostAfter else s.cycleNext Config.nSettle) := by
  unfold step
  cases h : s.inputs.rst
  · rw [cycleStep_run _ h]; rfl
  · rw [cycleStep_reset _ h]; rfl

/-- Without reset, the step is `cycleNext`. -/
theorem step_run {s : State} (h : s.inputs.rst = false) : step s = .next (s.cycleNext Config.nSettle) :=
  cycleStep_run _ h

end Sys2Proof.Machine
end

