-- ==== Sys2Proof/Laws/Run.lean ====
section
/-! SUPPORT. Runs of many cycles: how runs compose, what a host without resets keeps, and one byte write from `S1` to
the end of `S6` (R102 to R113). -/

namespace Sys2Proof.Machine

open Sys2Proof

theorem nSettle_pos : 1 ≤ Config.nSettle := Nat.le_add_left ..

theorem lItem_eq : Config.lItem = 4 + 2 * Config.nSettle := by
  simp only [Config.lItem, Config.itemCycles]

/-! ### Composing runs -/

@[simp] theorem runFor_zero (s : State) : runFor 0 s = .next s := rfl

theorem run_next (M : Host.Core) (k : Nat) {s t : M.State} (h : M.step s = .next t) :
    M.run (k + 1) s = M.run k t := by
  rw [Host.Core.run, h]

theorem runFor_succ (k : Nat) {s t : State} (h : step s = .next t) : runFor (k + 1) s = runFor k t :=
  run_next Sys2Proof.core k h

theorem runFor_one {s t : State} (h : step s = .next t) : runFor 1 s = .next t := runFor_succ 0 h

theorem runFor_add (j k : Nat) {s t : State} (h : runFor j s = .next t) : runFor (j + k) s = runFor k t := by
  induction j generalizing s with
  | zero =>
    simp only [runFor_zero, Host.Outcome.next.injEq] at h
    rw [h, Nat.zero_add]
  | succ j ih =>
    rw [Nat.add_right_comm, runFor_succ _ (step_eq s)]
    rw [runFor_succ _ (step_eq s)] at h
    exact ih h

/-- `k` cycles from `s` to `t`, in each of which (`t`'s apart) the block is busy. -/
structure BusyRun (k : Nat) (s t : State) : Prop where
  run : runFor k s = .next t
  busy : ∀ j < k, ∃ u, runFor j s = .next u ∧ u.st ≠ .idle

theorem BusyRun.refl (s : State) : BusyRun 0 s s := ⟨rfl, fun _ h => absurd h (Nat.not_lt_zero _)⟩

theorem BusyRun.one {s t : State} (h : step s = .next t) (hb : s.st ≠ .idle) : BusyRun 1 s t :=
  ⟨runFor_one h, fun j hj => ⟨s, by rw [Nat.lt_one_iff.1 hj, runFor_zero], hb⟩⟩

theorem BusyRun.trans {j k : Nat} {s t u : State} (h₁ : BusyRun j s t) (h₂ : BusyRun k t u) :
    BusyRun (j + k) s u := by
  refine ⟨by rw [runFor_add j k h₁.run, h₂.run], fun i hi => ?_⟩
  rcases Nat.lt_or_ge i j with hlt | hge
  · exact h₁.busy i hlt
  · obtain ⟨x, hx, hb⟩ := h₂.busy (i - j) (by omega)
    refine ⟨x, ?_, hb⟩
    rw [← hx, ← runFor_add j (i - j) h₁.run]
    congr 1
    omega

/-! ### Hosts -/

theorem State.NoReset.rst {s : State} (h : s.NoReset) : s.inputs.rst = false := by
  unfold State.inputs
  cases hs : s.host with
  | nil => rfl
  | cons line rest => exact h line (by simp [hs])

/-- A property of lines that `IDLE n` has for every `n` passes to what is left of the program. -/
theorem hostAfter_all {P : HostLine → Prop} (hidle : ∀ n, P (.idle n)) {s : State} (h : ∀ line ∈ s.host, P line) :
    ∀ line ∈ s.hostAfter, P line := by
  unfold State.hostAfter
  cases hs : s.host with
  | nil => simp
  | cons line rest =>
    have hl : P line := h line (by simp [hs])
    have hr : ∀ l ∈ rest, P l := fun l hmem => h l (by simp [hs, hmem])
    have hcons : ∀ l : HostLine, P l → ∀ x ∈ l :: rest, P x := fun l hp x hx => by
      rcases List.mem_cons.1 hx with rfl | hx
      · exact hp
      · exact hr x hx
    cases line with
    | cycle inp => exact hr
    | request w => dsimp only; split; exacts [hr, hcons _ hl]
    | action w => exact hr
    | wait => dsimp only; split; exacts [hcons _ hl, hr]
    | idle left =>
      cases left with
      | zero => exact hr
      | succ left => exact hcons _ (hidle left)

theorem hostAfter_noReset {s : State} (h : s.NoReset) : ∀ line ∈ s.hostAfter, line.drive.rst = false :=
  hostAfter_all (fun _ => rfl) h

theorem hostAfter_noFbWrite {s : State} (h : s.NoFbWrite) : ∀ line ∈ s.hostAfter, line.noFbWrite = true :=
  hostAfter_all (fun _ => rfl) h

/-- Without framebuffer writes by the host, the framebuffer stays (R160). -/
theorem fbAfter_noFbWrite {s : State} (h : s.NoFbWrite) : s.fbAfter s.inputs = s.fb := by
  unfold State.fbAfter State.inputs
  cases hs : s.host with
  | nil => rfl
  | cons line rest =>
    have hl := h line (by simp [hs])
    simp only [HostLine.noFbWrite, Bool.not_eq_true'] at hl
    simp [hl]

/-! ### One byte write -/

/-- What no cycle of a byte write changes, up to the edge that ends `S6`; the host may do anything but reset. -/
structure State.Kept (s t : State) : Prop where
  cop : t.cop = s.cop
  cval : t.cval = s.cval
  cmsk : t.cmsk = s.cmsk
  errOp : t.errOp = s.errOp
  noReset : s.NoReset → t.NoReset
  noFbWrite : s.NoFbWrite → t.NoFbWrite
  fb : s.NoFbWrite → t.fb = s.fb

theorem State.Kept.refl (s : State) : s.Kept s := ⟨rfl, rfl, rfl, rfl, id, id, fun _ => rfl⟩

theorem State.Kept.trans {s t u : State} (h₁ : s.Kept t) (h₂ : t.Kept u) : s.Kept u :=
  ⟨h₂.cop.trans h₁.cop, h₂.cval.trans h₁.cval, h₂.cmsk.trans h₁.cmsk, h₂.errOp.trans h₁.errOp,
    h₂.noReset ∘ h₁.noReset, h₂.noFbWrite ∘ h₁.noFbWrite, fun h => (h₂.fb (h₁.noFbWrite h)).trans (h₁.fb h)⟩

/-- A busy cycle without reset keeps all that. -/
theorem kept_cycleNext (n : Nat) {s : State} (hb : s.st ≠ .idle) : s.Kept (s.cycleNext n) := by
  have hs : s.seqNext n s.inputs = s.seqBusy n := if_neg hb
  have hk : (s.seqBusy n).cop = s.cop ∧ (s.seqBusy n).cval = s.cval ∧ (s.seqBusy n).cmsk = s.cmsk ∧
      (s.seqBusy n).errOp = s.errOp := by
    unfold State.seqBusy State.seqS4 State.seqS6 State.nextItem
    split <;> (try split) <;> (try split) <;> exact ⟨rfl, rfl, rfl, rfl⟩
  unfold State.cycleNext
  rw [hs]
  exact ⟨hk.1, hk.2.1, hk.2.2.1, hk.2.2.2, fun h => hostAfter_noReset h, fun h => hostAfter_noFbWrite h,
    fun h => fbAfter_noFbWrite h⟩

/-- The pins, the position, the chips and the trace: what a cycle inside a settle delay leaves alone. -/
structure State.Still (s t : State) : Prop extends s.Kept t where
  idx : t.idx = s.idx
  dOut : t.dOut = s.dOut
  dcOut : t.dcOut = s.dcOut
  cs1n : t.cs1n = s.cs1n
  cs2n : t.cs2n = s.cs2n
  chip1 : t.chip1 = s.chip1
  chip2 : t.chip2 = s.chip2
  trace : t.trace = s.trace

theorem State.Still.refl (s : State) : s.Still s :=
  { toKept := State.Kept.refl s, idx := rfl, dOut := rfl, dcOut := rfl, cs1n := rfl, cs2n := rfl,
    chip1 := rfl, chip2 := rfl, trace := rfl }

theorem State.Still.trans {s t u : State} (h₁ : s.Still t) (h₂ : t.Still u) : s.Still u :=
  { toKept := h₁.toKept.trans h₂.toKept, idx := h₂.idx.trans h₁.idx, dOut := h₂.dOut.trans h₁.dOut,
    dcOut := h₂.dcOut.trans h₁.dcOut, cs1n := h₂.cs1n.trans h₁.cs1n, cs2n := h₂.cs2n.trans h₁.cs2n,
    chip1 := h₂.chip1.trans h₁.chip1, chip2 := h₂.chip2.trans h₁.chip2, trace := h₂.trace.trans h₁.trace }

/-- Outside `S2` no chip latches (R105, R172). -/
theorem chipAfter_of_ne {s : State} (h : s.st ≠ .s2) (b : Bool) (c : Chip) : s.chipAfter b c = c := by
  simp [State.chipAfter, State.strobeRises, h]

/-- One busy cycle in `S3`, `S4`, `S5`, or `S6` before its end: still, with the sequencer's own change. -/
theorem still_cycle {s : State} (hr : s.NoReset) (hb : s.st ≠ .idle) (h2 : s.st ≠ .s2)
    {st : SeqState} {cnt : Nat} {wr : Bool}
    (hs : s.seqBusy Config.nSettle = { s with st := st, cnt := cnt, wrOut := wr }) :
    ∃ t, BusyRun 1 s t ∧ s.Still t ∧ t.st = st ∧ t.cnt = cnt ∧ t.wrOut = wr ∧ t.cycle = s.cycle + 1 := by
  have hn : s.seqNext Config.nSettle s.inputs = s.seqBusy Config.nSettle := if_neg hb
  have hk := kept_cycleNext Config.nSettle hb
  refine ⟨_, BusyRun.one (step_run hr.rst) hb, ?_, ?_⟩
  · refine ⟨hk, ?_, ?_, ?_, ?_, ?_, ?_, ?_, ?_⟩ <;> simp only [State.cycleNext, hn, hs, chipAfter_of_ne h2]
  · simp only [State.cycleNext, hn, hs, and_self]

/-- `S4` from a counter of `c ≥ 1`: after `c` cycles `S5`, the strobe low (R107). -/
theorem run_S4 (c : Nat) : ∀ {s : State}, s.NoReset → s.st = .s4 → s.cnt = c + 1 → s.wrOut = true →
    ∃ t, BusyRun (c + 1) s t ∧ s.Still t ∧ t.st = .s5 ∧ t.cnt = 0 ∧ t.wrOut = false ∧
      t.cycle = s.cycle + (c + 1) := by
  induction c with
  | zero =>
    intro s hr hst hc _
    exact still_cycle hr (by simp [hst]) (by simp [hst]) (by simp only [State.seqBusy, hst]; exact seqS4_last _ hc)
  | succ c ih =>
    intro s hr hst hc hw
    have hsb : s.seqBusy Config.nSettle = { s with st := .s4, cnt := c + 1, wrOut := true } := by
      simp only [State.seqBusy, hst]
      rw [seqS4_more _ (by omega), countDown_of_pos (by omega), hc, ← hst, ← hw]
      rfl
    obtain ⟨t, hrun, hstill, h1, h2, h3, h4⟩ := still_cycle hr (by simp [hst]) (by simp [hst]) hsb
    obtain ⟨u, hrun', hstill', g1, g2, g3, g4⟩ := ih (hstill.noReset hr) h1 h2 h3
    refine ⟨u, ?_, hstill.trans hstill', g1, g2, g3, by omega⟩
    rw [Nat.add_comm (c + 1) 1]
    exact hrun.trans hrun'

/-- `S6` from a counter of `c ≥ 1`: after `c - 1` cycles its last cycle (R109). -/
theorem run_S6 (c : Nat) : ∀ {s : State}, s.NoReset → s.st = .s6 → s.cnt = c + 1 → s.wrOut = false →
    ∃ t, BusyRun c s t ∧ s.Still t ∧ t.st = .s6 ∧ t.cnt = 1 ∧ t.wrOut = false ∧ t.cycle = s.cycle + c := by
  induction c with
  | zero =>
    intro s hr hst hc hw
    exact ⟨s, BusyRun.refl s, State.Still.refl s, hst, hc, hw, rfl⟩
  | succ c ih =>
    intro s hr hst hc hw
    have hsb : s.seqBusy Config.nSettle = { s with st := .s6, cnt := c + 1, wrOut := false } := by
      simp only [State.seqBusy, hst]
      rw [seqS6_more _ (by omega), countDown_of_pos (by omega), hc, ← hst, ← hw]
      rfl
    obtain ⟨t, hrun, hstill, h1, h2, h3, h4⟩ := still_cycle hr (by simp [hst]) (by simp [hst]) hsb
    obtain ⟨u, hrun', hstill', g1, g2, g3, g4⟩ := ih (hstill.noReset hr) h1 h2 h3
    refine ⟨u, ?_, hstill.trans hstill', g1, g2, g3, by omega⟩
    rw [Nat.add_comm c 1]
    exact hrun.trans hrun'

/-- `S1` to `S3` in two cycles (R104, R105): the control lines take the item's levels and the selected chips
latch the byte. -/
theorem run_latch {s : State} (hr : s.NoReset) (hst : s.st = .s1) :
    ∃ t, BusyRun 2 s t ∧ s.Kept t ∧ t.st = .s3 ∧ t.cnt = s.cnt ∧ t.wrOut = true ∧ t.cycle = s.cycle + 2 ∧
      t.idx = s.idx ∧ t.dOut = s.dOut ∧ t.dcOut = s.item.dc ∧
      t.cs1n = !maskChip1 s.item.mask ∧ t.cs2n = !maskChip2 s.item.mask ∧
      t.chip1 = (if maskChip1 s.item.mask then s.chip1.latch s.item.dc s.dOut else s.chip1) ∧
      t.chip2 = (if maskChip2 s.item.mask then s.chip2.latch s.item.dc s.dOut else s.chip2) ∧
      t.trace = s.trace ++ eventsOf (s.cycle + 1) s.item.mask s.item.dc s.dOut := by
  have hb : s.st ≠ .idle := by simp [hst]
  have hn : s.seqNext Config.nSettle s.inputs = s.seqS1 := by
    unfold State.seqNext
    rw [if_neg hb]
    simp only [State.seqBusy, hst]
  set u := s.cycleNext Config.nSettle with hu
  have hk := kept_cycleNext Config.nSettle hb
  have hc1 : u.chip1 = s.chip1 := chipAfter_of_ne (by simp [hst]) ..
  have hc2 : u.chip2 = s.chip2 := chipAfter_of_ne (by simp [hst]) ..
  have hust : u.st = .s2 := by simp only [hu, State.cycleNext, hn, seqS1_st]
  have hwr : u.wrOut = false := by simp only [hu, State.cycleNext, hn, seqS1_wrOut]
  have hdc : u.dcOut = s.item.dc := by simp only [hu, State.cycleNext, hn, seqS1_dcOut]
  have hcs1 : u.cs1n = !maskChip1 s.item.mask := by simp only [hu, State.cycleNext, hn, seqS1_cs1n]
  have hcs2 : u.cs2n = !maskChip2 s.item.mask := by simp only [hu, State.cycleNext, hn, seqS1_cs2n]
  have hd : u.dOut = s.dOut := by simp only [hu, State.cycleNext, hn, seqS1_dOut]
  have hcy : u.cycle = s.cycle + 1 := rfl
  have htr : u.trace = s.trace := by simp only [hu, State.cycleNext, hn, seqS1_trace]
  have hidx : u.idx = s.idx := by simp only [hu, State.cycleNext, hn, seqS1_idx]
  have hcnt : u.cnt = s.cnt := by simp only [hu, State.cycleNext, hn, seqS1_cnt]
  have hb' : u.st ≠ .idle := by simp [hust]
  have hn' : u.seqNext Config.nSettle u.inputs = u.seqS2 := by
    unfold State.seqNext
    rw [if_neg hb']
    simp only [State.seqBusy, hust]
  have hrise : u.strobeRises = true := by simp [State.strobeRises, hust, hwr]
  refine ⟨u.cycleNext Config.nSettle,
    (BusyRun.one (step_run hr.rst) hb).trans (BusyRun.one (step_run (hk.noReset hr).rst) hb'),
    hk.trans (kept_cycleNext Config.nSettle hb'), ?_⟩
  simp only [State.cycleNext, hn', seqS2_st, seqS2_cnt, seqS2_wrOut, seqS2_idx, seqS2_dOut, seqS2_dcOut,
    seqS2_cs1n, seqS2_cs2n, seqS2_trace, State.chipAfter, hrise, hcs1, hcs2, hdc, hd, hc1, hc2, htr, hcy, hidx,
    hcnt, Bool.true_and, Bool.not_not, State.latchEvents, eventsOf]
  refine ⟨trivial, trivial, trivial, trivial, trivial, trivial, trivial, trivial, trivial, trivial, trivial, ?_⟩
  cases maskChip1 s.item.mask <;> cases maskChip2 s.item.mask <;> rfl

/-- What one whole byte write does, from its first cycle to the edge that ends it (R101 to R113). The next
item's byte, if there is one, is read at that edge from the framebuffer as it stands (R102). -/
structure ItemDone (s t : State) : Prop extends s.Kept t where
  cnt : t.cnt = 0
  wrOut : t.wrOut = false
  dcOut : t.dcOut = s.item.dc
  cs1n : t.cs1n = !maskChip1 s.item.mask
  cs2n : t.cs2n = !maskChip2 s.item.mask
  chip1 : t.chip1 = if maskChip1 s.item.mask then s.chip1.latch s.item.dc s.dOut else s.chip1
  chip2 : t.chip2 = if maskChip2 s.item.mask then s.chip2.latch s.item.dc s.dOut else s.chip2
  trace : t.trace = s.trace ++ eventsOf (s.cycle + 1) s.item.mask s.item.dc s.dOut
  cycle : t.cycle = s.cycle + Config.lItem
  more : s.idx.toNat + 1 < itemCount s.cop → t.st = .s1 ∧ t.idx.toNat = s.idx.toNat + 1 ∧
    (∀ b, t.item.src = .imm b → t.dOut = b) ∧
    (s.NoFbWrite → t.dOut = s.sourceByte t.item.src) ∧
    ∃ u, runFor (Config.lItem - 1) s = .next u ∧ t.dOut = u.sourceByte t.item.src
  done : ¬ s.idx.toNat + 1 < itemCount s.cop → t.st = .idle ∧ t.idx = s.idx ∧ t.dOut = s.dOut

theorem itemCount_le (op : BitVec 3) : itemCount op ≤ 500 := by
  revert op
  decide

/-- A byte write takes `L_ITEM` cycles, all of them busy (R112). -/
theorem run_item {s : State} (hr : s.NoReset) (hst : s.st = .s1) :
    ∃ t, BusyRun Config.lItem s t ∧ ItemDone s t := by
  obtain ⟨N, hN⟩ : ∃ N, Config.nSettle = N + 1 := ⟨Config.nSettle - 1, by have := nSettle_pos; omega⟩
  obtain ⟨a, ra, ka, a1, a2, a3, a4, a5, a6, a7, a8, a9, a10, a11, a12⟩ := run_latch hr hst
  have hra := ka.noReset hr
  obtain ⟨b, rb, kb, b1, b2, b3, b4⟩ := still_cycle (s := a) (st := .s4) (cnt := N + 1) (wr := true) hra
    (by simp [a1]) (by simp [a1]) (by simp only [State.seqBusy, a1, State.seqS3, hN, ← a3])
  have hrb := kb.noReset hra
  obtain ⟨c, rc, kc, c1, c2, c3, c4⟩ := run_S4 N hrb b1 b2 b3
  have hrc := kc.noReset hrb
  obtain ⟨d, rd, kd, d1, d2, d3, d4⟩ := still_cycle (s := c) (st := .s6) (cnt := N + 1) (wr := false) hrc
    (by simp [c1]) (by simp [c1]) (by simp only [State.seqBusy, c1, State.seqS5, hN, ← c3])
  have hrd := kd.noReset hrc
  obtain ⟨e, re, ke, e1, e2, e3, e4⟩ := run_S6 N hrd d1 d2 d3
  have hre := ke.noReset hrd
  have hs : a.Still e := ((kb.trans kc).trans kd).trans ke
  have hke : s.Kept e := ka.trans hs.toKept
  have heb : e.st ≠ .idle := by simp [e1]
  have hn : e.seqNext Config.nSettle e.inputs = e.nextItem := by
    unfold State.seqNext
    rw [if_neg heb]
    simp only [State.seqBusy, e1]
    exact seqS6_last _ e2
  have hidx : e.idx = s.idx := hs.idx.trans a5
  have hl : Config.lItem = 2 + 1 + (N + 1) + 1 + N + 1 := by rw [lItem_eq, hN]; omega
  have hrun : BusyRun (2 + 1 + (N + 1) + 1 + N) s e := (((ra.trans rb).trans rc).trans rd).trans re
  refine ⟨e.cycleNext Config.nSettle, ?_, ?_⟩
  · rw [hl]
    exact hrun.trans (BusyRun.one (step_run hre.rst) heb)
  · have hk := hke.trans (kept_cycleNext Config.nSettle heb)
    have h2 : e.st ≠ .s2 := by simp [e1]
    have hni : e.nextItem.cnt = 0 ∧ e.nextItem.wrOut = e.wrOut ∧ e.nextItem.dcOut = e.dcOut ∧
        e.nextItem.cs1n = e.cs1n ∧ e.nextItem.cs2n = e.cs2n ∧ e.nextItem.trace = e.trace := by
      unfold State.nextItem
      split <;> exact ⟨rfl, rfl, rfl, rfl, rfl, rfl⟩
    refine ⟨hk, ?_, ?_, ?_, ?_, ?_, ?_, ?_, ?_, ?_, ?_, ?_⟩
    · simp only [State.cycleNext, hn, hni]
    · simp only [State.cycleNext, hn, hni, e3]
    · simp only [State.cycleNext, hn, hni, hs.dcOut, a7]
    · simp only [State.cycleNext, hn, hni, hs.cs1n, a8]
    · simp only [State.cycleNext, hn, hni, hs.cs2n, a9]
    · simp only [State.cycleNext, chipAfter_of_ne h2, hs.chip1, a10]
    · simp only [State.cycleNext, chipAfter_of_ne h2, hs.chip2, a11]
    · simp only [State.cycleNext, hn, hni, hs.trace, a12]
    · show e.cycle + 1 = _
      rw [lItem_eq, hN]
      omega
    · intro hmore
      have hmore' : e.idx.toNat + 1 < itemCount e.cop := by rw [hidx, hke.cop]; exact hmore
      have hlt : s.idx.toNat + 1 < 512 := by have := itemCount_le s.cop; omega
      have hadd : (e.idx + 1).toNat = s.idx.toNat + 1 := by
        rw [hidx, BitVec.toNat_add]
        exact Nat.mod_eq_of_lt hlt
      have hitem : (e.cycleNext Config.nSettle).item =
          item e.cop e.cval e.cmsk (s.idx.toNat + 1) := by
        simp only [State.item, State.cycleNext, hn, nextItem_more hmore', enterItem_cop, enterItem_cval,
          enterItem_cmsk, hadd]
      have hd : (e.cycleNext Config.nSettle).dOut = e.sourceByte (item e.cop e.cval e.cmsk (s.idx.toNat + 1)).src := by
        simp only [State.cycleNext, hn, nextItem_more hmore', enterItem_dOut, hidx]
      refine ⟨by simp only [State.cycleNext, hn, nextItem_more hmore', enterItem_st],
        by simp only [State.cycleNext, hn, nextItem_more hmore', hadd], ?_, ?_, e, ?_, ?_⟩
      · intro b hb
        rw [hd, ← hitem, hb]
        rfl
      · intro hf
        rw [hd, ← hitem]
        exact sourceByte_congr (hke.fb hf) _
      · rw [hl, Nat.add_sub_cancel]
        exact hrun.run
      · rw [hd, ← hitem]
    · intro hdone
      have hdone' : ¬ e.idx.toNat + 1 < itemCount e.cop := by rw [hidx, hke.cop]; exact hdone
      simp only [State.cycleNext, hn, nextItem_done hdone', hidx, hs.dOut, a6, and_self]

end Sys2Proof.Machine
end

