-- ==== Sys2Proof/Laws/Operation.lean ====
section
/-! SUPPORT. A whole operation, from its acceptance to each of its items (R103, R113): where the block stands at the
start of item i, and what has been latched by then. -/

namespace Sys2Proof.Machine

open Sys2Proof

/-! ### What an operation sends -/

/-- The bytes of an operation are settled at its acceptance: none comes from the framebuffer, or the host writes
no framebuffer byte. -/
def State.Foreseen (s : State) (op : BitVec 3) : Prop := op.toNat ≤ 4 ∨ s.NoFbWrite

/-- Whether a mask selects a chip (R12). -/
def maskHas : ChipId → Mask → Bool
  | .one, m => maskChip1 m
  | .two, m => maskChip2 m

/-- What a chip latches of one item sent with byte `b`. -/
def Item.sentTo (it : Item) (j : ChipId) (b : Byte) : List (Bool × Byte) :=
  if maskHas j it.mask then [(it.dc, b)] else []

/-- A chip after a list of latched words. -/
def Chip.latchAll (c : Chip) (l : List (Bool × Byte)) : Chip := l.foldl (fun c e => c.latch e.1 e.2) c

theorem latchAll_append (c : Chip) (l l' : List (Bool × Byte)) :
    c.latchAll (l ++ l') = (c.latchAll l).latchAll l' := List.foldl_append ..

@[simp] theorem latchAll_nil (c : Chip) : c.latchAll [] = c := rfl

@[simp] theorem latchAll_cons (c : Chip) (e : Bool × Byte) (l : List (Bool × Byte)) :
    c.latchAll (e :: l) = (c.latch e.1 e.2).latchAll l := rfl

/-- An operation other than FLUSH sends immediate bytes only (R140). -/
theorem item_src_imm {op : BitVec 3} (h : op.toNat ≤ 4) (v : Byte) (m : Mask) (i : Nat) :
    ∃ b, (item op v m i).src = .imm b := by
  unfold item
  split
  · revert h
    rcases opcode_cases op with e | e | e | e | e | e | e | e <;> subst e <;> intro h
    · exact ⟨_, rfl⟩
    · exact ⟨_, rfl⟩
    · exact ⟨_, rfl⟩
    · exact ⟨_, rfl⟩
    · show ∃ b, (initItem i).src = .imm b
      unfold initItem
      split <;> exact ⟨_, rfl⟩
    · exact absurd h (by decide)
    · exact ⟨_, rfl⟩
    · exact ⟨_, rfl⟩
  · exact ⟨_, rfl⟩

/-- The items `0, …, i - 1` of an operation as the latch events they emit, the first item's strobe rising at the
end of cycle `t0` and the items `L_ITEM` cycles apart (R113). -/
def operationEvents (s : State) (op : BitVec 3) (m : Mask) (v : Byte) (t0 i : Nat) : List LatchEvent :=
  (List.range i).flatMap fun k =>
    let it := item op v m k
    eventsOf (t0 + k * Config.lItem) it.mask it.dc (s.sourceByte it.src)

/-- The items `0, …, i - 1` of an operation as the words they bring to one chip. -/
def operationWords (s : State) (op : BitVec 3) (m : Mask) (v : Byte) (j : ChipId) (i : Nat) : List (Bool × Byte) :=
  (List.range i).flatMap fun k =>
    let it := item op v m k
    it.sentTo j (s.sourceByte it.src)

theorem operationEvents_succ (s : State) (op : BitVec 3) (m : Mask) (v : Byte) (t0 i : Nat) :
    operationEvents s op m v t0 (i + 1) = operationEvents s op m v t0 i ++
      eventsOf (t0 + i * Config.lItem) (item op v m i).mask (item op v m i).dc
        (s.sourceByte (item op v m i).src) := by
  simp [operationEvents, List.range_succ]

theorem operationWords_succ (s : State) (op : BitVec 3) (m : Mask) (v : Byte) (j : ChipId) (i : Nat) :
    operationWords s op m v j (i + 1) = operationWords s op m v j i ++
      (item op v m i).sentTo j (s.sourceByte (item op v m i).src) := by
  simp [operationWords, List.range_succ]

/-! ### Acceptance -/

/-- The state right after the acceptance of an operation from a request line (R103). -/
structure Accepted (s t : State) (op : BitVec 3) (m : Mask) (v : Byte) : Prop where
  st : t.st = .s1
  cop : t.cop = op
  cval : t.cval = v
  cmsk : t.cmsk = m
  idx : t.idx = 0
  errOp : t.errOp = s.errOp
  cycle : t.cycle = s.cycle + 1
  trace : t.trace = s.trace
  chip1 : t.chip1 = s.chip1
  chip2 : t.chip2 = s.chip2
  dOut : t.dOut = s.sourceByte (item op v m 0).src
  noReset : t.NoReset
  noFbWrite : s.NoFbWrite → t.NoFbWrite
  fb : s.NoFbWrite → t.fb = s.fb

/-- A host that offers a request does not reset. -/
theorem State.Offers.noReset {s : State} {w : BitVec 13} {rest : List HostLine} (h : s.Offers w rest) :
    s.NoReset := by
  intro l hl
  rw [h.1] at hl
  rcases List.mem_cons.1 hl with rfl | hl
  · rfl
  · exact h.2 l hl

theorem State.Offers.inputs {s : State} {w : BitVec 13} {rest : List HostLine} (h : s.Offers w rest) :
    s.inputs = Inputs.ofRequest w := by
  simp [State.inputs, h.1, HostLine.drive]

/-- An operation offered in `IDLE` is accepted (R103). -/
theorem accept_operation {s : State} {op : BitVec 3} {m : Mask} {v : Byte} {rest : List HostLine}
    (h : s.st = .idle) (ho : s.Offers (requestWord op m v) rest) (hop : op.toNat ≤ 5) :
    ∃ t, step s = .next t ∧ Accepted s t op m v := by
  have hn : s.seqNext Config.nSettle s.inputs = (s.storeRequest op m v).enterItem op v m 0 := by
    rw [ho.inputs]
    simp [State.seqNext, h, Inputs.ofRequest, State.requestNext, hop]
  have h2 : s.st ≠ .s2 := by simp [h]
  refine ⟨_, step_run ho.noReset.rst, ?_⟩
  refine ⟨?_, ?_, ?_, ?_, ?_, ?_, rfl, ?_, ?_, ?_, ?_, fun l hl => hostAfter_noReset ho.noReset l hl,
    fun hf l hl => hostAfter_noFbWrite hf l hl, fun hf => fbAfter_noFbWrite hf⟩
  all_goals simp only [State.cycleNext, hn, chipAfter_of_ne h2, enterItem_st, enterItem_cop, enterItem_cval,
    enterItem_cmsk, enterItem_idx, enterItem_errOp, enterItem_trace, enterItem_dOut, storeRequest_cop,
    storeRequest_cval, storeRequest_cmsk, storeRequest_idx, storeRequest_errOp, storeRequest_trace]
  exact sourceByte_congr (by simp) _

/-! ### The items in turn -/

/-- The state at the first cycle (`S1`) of item `i` of an operation offered in state `s` (R113). -/
structure AtItem (s t : State) (op : BitVec 3) (m : Mask) (v : Byte) (i : Nat) : Prop where
  run : runFor (1 + i * Config.lItem) s = .next t
  busy : ∀ k, 1 ≤ k → k < 1 + i * Config.lItem → ∃ u, runFor k s = .next u ∧ u.st ≠ .idle
  st : t.st = .s1
  cop : t.cop = op
  cval : t.cval = v
  cmsk : t.cmsk = m
  idx : t.idx.toNat = i
  errOp : t.errOp = s.errOp
  cycle : t.cycle = s.cycle + 1 + i * Config.lItem
  noReset : t.NoReset
  noFbWrite : s.NoFbWrite → t.NoFbWrite
  fb : s.NoFbWrite → t.fb = s.fb
  /-- The item's byte was read at the edge that entered the item, from the framebuffer of the cycle before. -/
  byte : ∃ u, runFor (i * Config.lItem) s = .next u ∧ t.dOut = u.sourceByte (item op v m i).src
  /-- The bytes foreseen, all of it is a function of the state at acceptance. -/
  dOut : s.Foreseen op → t.dOut = s.sourceByte (item op v m i).src
  trace : s.Foreseen op → t.trace = s.trace ++ operationEvents s op m v (s.cycle + 2) i
  chip : s.Foreseen op → ∀ j, t.chip j = (s.chip j).latchAll (operationWords s op m v j i)
  /-- Whatever the host writes, the trace only grows. -/
  grows : ∃ ev, t.trace = s.trace ++ ev

theorem AtItem.item {s t : State} {op : BitVec 3} {m : Mask} {v : Byte} {i : Nat} (T : AtItem s t op m v i) :
    t.item = Sys2Proof.Machine.item op v m i := by
  simp only [State.item, T.cop, T.cval, T.cmsk, T.idx]

/-- A foreseen byte is the same from the two framebuffers. -/
theorem sourceByte_foreseen {s t : State} {op : BitVec 3} (hf : s.Foreseen op) (hfb : s.NoFbWrite → t.fb = s.fb)
    (v : Byte) (m : Mask) (i : Nat) :
    t.sourceByte (item op v m i).src = s.sourceByte (item op v m i).src := by
  rcases hf with hop | hw
  · obtain ⟨b, hb⟩ := item_src_imm hop v m i
    rw [hb]
    rfl
  · exact sourceByte_congr (hfb hw) _

/-- What the chips hold after a byte write, in the words of the trace (R172). -/
theorem ItemDone.chip {s t : State} (D : ItemDone s t) (j : ChipId) :
    t.chip j = (s.chip j).latchAll (s.item.sentTo j s.dOut) := by
  cases j
  · by_cases hm : maskChip1 s.item.mask = true <;> simp [State.chip, D.chip1, Item.sentTo, maskHas, hm]
  · by_cases hm : maskChip2 s.item.mask = true <;> simp [State.chip, D.chip2, Item.sentTo, maskHas, hm]

/-- Every item of an accepted operation has its turn, `L_ITEM` cycles after the one before (R113). -/
theorem at_item {s : State} {op : BitVec 3} {m : Mask} {v : Byte} {rest : List HostLine}
    (h : s.st = .idle) (ho : s.Offers (requestWord op m v) rest) (hop : op.toNat ≤ 5) (i : Nat) :
    i < itemCount op → ∃ t, AtItem s t op m v i := by
  induction i with
  | zero =>
    intro _
    obtain ⟨a, ha, A⟩ := accept_operation h ho hop
    refine ⟨a, ⟨by simpa using runFor_one ha, fun k h1 h2 => by omega, A.st, A.cop, A.cval, A.cmsk, by rw [A.idx]; rfl,
      A.errOp, by rw [A.cycle]; omega, A.noReset, A.noFbWrite, A.fb, ⟨s, by simp, A.dOut⟩, fun _ => A.dOut, ?_, ?_,
      ⟨[], by simp [A.trace]⟩⟩⟩
    · intro _
      simp [A.trace, operationEvents]
    · intro _ j
      cases j
      · simp [State.chip, A.chip1, operationWords]
      · simp [State.chip, A.chip2, operationWords]
  | succ i ih =>
    intro hi
    obtain ⟨t, T⟩ := ih (by omega)
    obtain ⟨u, hrun, D⟩ := run_item T.noReset T.st
    obtain ⟨d1, d2, _, _, x, hx, hd⟩ := D.more (by rw [T.idx, T.cop]; exact hi)
    have hui : u.item = item op v m (i + 1) := by
      simp only [State.item, D.cop, D.cval, D.cmsk, d2, T.cop, T.cval, T.cmsk, T.idx]
    have hL : 1 ≤ Config.lItem := by rw [lItem_eq]; omega
    have hadd : 1 + (i + 1) * Config.lItem = (1 + i * Config.lItem) + Config.lItem := by ring
    have hfb : s.NoFbWrite → t.fb = s.fb := T.fb
    have hdo : s.Foreseen op → u.dOut = s.sourceByte (item op v m (i + 1)).src := fun hf => by
      rcases hf with hop4 | hw
      · obtain ⟨b, hb⟩ := item_src_imm hop4 v m (i + 1)
        rw [hd, hui, hb]
        rfl
      · have := (D.more (by rw [T.idx, T.cop]; exact hi)).2.2.2.1 (T.noFbWrite hw)
        rw [this, hui]
        exact sourceByte_congr (T.fb hw) _
    refine ⟨u, ⟨?_, ?_, d1, D.cop.trans T.cop, D.cval.trans T.cval, D.cmsk.trans T.cmsk, by rw [d2, T.idx],
      D.errOp.trans T.errOp, ?_, D.noReset T.noReset, fun hw => D.noFbWrite (T.noFbWrite hw),
      fun hw => (D.fb (T.noFbWrite hw)).trans (T.fb hw), ⟨x, ?_, by rw [hd, hui]⟩, hdo, ?_, ?_, ?_⟩⟩
    · rw [hadd, runFor_add _ _ T.run, hrun.run]
    · intro k h1 h2
      rcases Nat.lt_or_ge k (1 + i * Config.lItem) with hlt | hge
      · exact T.busy k h1 hlt
      · obtain ⟨y, hy, hb⟩ := hrun.busy (k - (1 + i * Config.lItem)) (by omega)
        refine ⟨y, ?_, hb⟩
        rw [← hy, ← runFor_add _ _ T.run]
        congr 1
        omega
    · rw [D.cycle, T.cycle]
      ring
    · rw [← hx, ← runFor_add _ _ T.run]
      congr 1
      rw [Nat.add_mul]
      omega
    · intro hf
      rw [D.trace, T.trace hf, operationEvents_succ, T.item, T.dOut hf, T.cycle, List.append_assoc]
      congr 3
      omega
    · intro hf j
      rw [operationWords_succ, latchAll_append, ← T.chip hf j, D.chip, T.item, T.dOut hf]
    · obtain ⟨ev, hev⟩ := T.grows
      exact ⟨_, by rw [D.trace, hev, List.append_assoc]⟩

/-- The end of an operation of `n + 1` items: back in `IDLE` when its last item is done (R113). -/
theorem operation_done {s : State} {op : BitVec 3} {m : Mask} {v : Byte} {rest : List HostLine}
    (h : s.st = .idle) (ho : s.Offers (requestWord op m v) rest) (hop : op.toNat ≤ 5) {n : Nat}
    (hn : itemCount op = n + 1) :
    ∃ t u, AtItem s t op m v n ∧ BusyRun Config.lItem t u ∧ ItemDone t u ∧ u.st = .idle ∧ u.idx = t.idx ∧
      u.dOut = t.dOut ∧ runFor (1 + (n + 1) * Config.lItem) s = .next u := by
  obtain ⟨t, T⟩ := at_item h ho hop n (by omega)
  obtain ⟨u, hrun, D⟩ := run_item T.noReset T.st
  obtain ⟨d1, d2, d3⟩ := D.done (by rw [T.idx, T.cop]; omega)
  refine ⟨t, u, T, hrun, D, d1, d2, d3, ?_⟩
  have hadd : 1 + (n + 1) * Config.lItem = (1 + n * Config.lItem) + Config.lItem := by ring
  rw [hadd, runFor_add _ _ T.run, hrun.run]

end Sys2Proof.Machine
end

