-- ==== Sys2Proof/Laws/PerInstr.lean ====
section
/-! SUPPORT. Statements about every instruction, one lemma per constructor: decoding the encoding of a well-formed
instruction gives it back (R70 to R76). -/

namespace Sys2Proof.Laws

open Sys2Proof

/-- Decoding an instruction's word gives the instruction. -/
def RoundTrip.Statement (i : Instr) : Prop := i.wf = true → decode (encode i) = i

theorem RoundTrip.wrcmd (m : Mask) (v : Byte) : RoundTrip.Statement (.wrcmd m v) := fun _ => decode_request 0 m v
theorem RoundTrip.wrdata (m : Mask) (v : Byte) : RoundTrip.Statement (.wrdata m v) := fun _ => decode_request 1 m v
theorem RoundTrip.selpage (m : Mask) (v : Byte) : RoundTrip.Statement (.selpage m v) := fun _ => decode_request 2 m v
theorem RoundTrip.selcol (m : Mask) (v : Byte) : RoundTrip.Statement (.selcol m v) := fun _ => decode_request 3 m v
theorem RoundTrip.init (m : Mask) (v : Byte) : RoundTrip.Statement (.init m v) := fun _ => decode_request 4 m v
theorem RoundTrip.flush (m : Mask) (v : Byte) : RoundTrip.Statement (.flush m v) := fun _ => decode_request 5 m v
theorem RoundTrip.rsv6 (m : Mask) (v : Byte) : RoundTrip.Statement (.rsv6 m v) := fun _ => decode_request 6 m v
theorem RoundTrip.rsv7 (m : Mask) (v : Byte) : RoundTrip.Statement (.rsv7 m v) := fun _ => decode_request 7 m v

theorem RoundTrip.fbw (a : BitVec 9) (b : Byte) : RoundTrip.Statement (.fbw a b) :=
  fun _ => decode_action true true a b
theorem RoundTrip.fbr (a : BitVec 9) (b : Byte) : RoundTrip.Statement (.fbr a b) :=
  fun _ => decode_action true false a b
theorem RoundTrip.fbnop (we : Bool) (a : BitVec 9) (b : Byte) : RoundTrip.Statement (.fbnop we a b) :=
  fun _ => decode_action false we a b

theorem RoundTrip.data (d : Byte) : RoundTrip.Statement (.data d) := fun _ => decode_wire true d

theorem RoundTrip.pageSet (p : BitVec 2) : RoundTrip.Statement (.pageSet p) := fun _ => by
  revert p
  decide

theorem RoundTrip.columnSet (c : BitVec 7) : RoundTrip.Statement (.columnSet c) := fun _ => by
  revert c
  decide

theorem RoundTrip.swReset : RoundTrip.Statement .swReset := fun _ => by decide
theorem RoundTrip.displayOn : RoundTrip.Statement .displayOn := fun _ => by decide
theorem RoundTrip.startLine : RoundTrip.Statement .startLine := fun _ => by decide

theorem RoundTrip.otherCmd (d : Byte) : RoundTrip.Statement (.otherCmd d) := fun h => by
  simp only [Instr.wf, isOtherCommand, namedCommand, Bool.and_eq_true, Bool.not_eq_true', Bool.or_eq_false_iff,
    beq_eq_false_iff_ne] at h
  obtain ⟨h7, ⟨⟨hp, h1⟩, h2⟩, h3⟩ := h
  simp only [encode, decode_wire, decodeCommand, hp, h7, h1, h2, h3, if_false, Bool.false_eq_true,
    Bool.true_eq_false]

end Sys2Proof.Laws
end

