-- ==== Sys2Proof/Tests/Slice0.lean ====
section
/-! SUPPORT. Our own tests: the WellFormed smoke, words written out from the spec's encodings, one step of each
instruction with the effect the spec's worked examples give, and a witness for every statement with hypotheses. -/

namespace Sys2Proof.Tests

open Sys2Proof Sys2Proof.Machine

/-! ### WellFormed: the one check refuses each command byte that has its own row (45_lcd_chip_model.md R179) -/

theorem test_wf_refuses_column_byte : (Instr.otherCmd 0x00).wf = false := by decide
theorem test_wf_refuses_last_column_byte : (Instr.otherCmd 0x7F).wf = false := by decide
theorem test_wf_refuses_page_byte : (Instr.otherCmd 0xB8).wf = false := by decide
theorem test_wf_refuses_last_page_byte : (Instr.otherCmd 0xBB).wf = false := by decide
theorem test_wf_refuses_reset_byte : (Instr.otherCmd 0xE2).wf = false := by decide
theorem test_wf_refuses_display_on_byte : (Instr.otherCmd 0xAF).wf = false := by decide
theorem test_wf_refuses_start_byte : (Instr.otherCmd 0xC0).wf = false := by decide
theorem test_wf_accepts_other_bytes :
    (Instr.otherCmd 0x80).wf = true ∧ (Instr.otherCmd 0xBC).wf = true ∧ (Instr.otherCmd 0xB7).wf = true := by decide

/-! ### Decoding: every row, from words written field by field (30_encoding.md R70, R74, R76; 95 sections 2.1, 2.5, 2.7) -/

theorem test_decode_wrcmd : decode (.request 0b000_11_11100010) = .wrcmd 0b11 0xE2 := by decide
theorem test_decode_wrdata : decode (.request 0b001_01_01011010) = .wrdata 0b01 0x5A := by decide
theorem test_decode_selpage : decode (.request 0b010_00_00000010) = .selpage 0b00 0x02 := by decide
theorem test_decode_selcol : decode (.request 0b011_10_00001010) = .selcol 0b10 0x0A := by decide
theorem test_decode_init : decode (.request 0b100_11_10101011) = .init 0b11 0xAB := by decide
theorem test_decode_flush : decode (.request 0b101_00_00000000) = .flush 0b00 0x00 := by decide
theorem test_decode_rsv6 : decode (.request 0b110_00_00000000) = .rsv6 0b00 0x00 := by decide
theorem test_decode_rsv7 : decode (.request 0b111_11_11111111) = .rsv7 0b11 0xFF := by decide
theorem test_decode_fbw : decode (.action 0b1_1_000111101_11111111) = .fbw 61 0xFF := by decide
theorem test_decode_fbr : decode (.action 0b1_0_111101000_00000000) = .fbr 488 0x00 := by decide
theorem test_decode_fbnop : decode (.action 0b0_1_111111111_11111111) = .fbnop true 511 0xFF := by decide
theorem test_decode_data : decode (.wire 0b1_10101010) = .data 0xAA := by decide
theorem test_decode_page : decode (.wire 0b0_101110_01) = .pageSet 1 := by decide
theorem test_decode_column : decode (.wire 0b0_0_1001111) = .columnSet 79 := by decide
theorem test_decode_reset : decode (.wire 0b0_11100010) = .swReset := by decide
theorem test_decode_display_on : decode (.wire 0b0_10101111) = .displayOn := by decide
theorem test_decode_start : decode (.wire 0b0_11000000) = .startLine := by decide
theorem test_decode_other : decode (.wire 0b0_10111100) = .otherCmd 0xBC := by decide
theorem test_encode_words :
    encode (.wrcmd 0b11 0xE2) = .request 0x03E2 ∧ encode (.fbw 488 0x55) = .action 0x7E855 ∧
    encode (.fbr 61 0x00) = .action 0x43D00 ∧ encode (.pageSet 3) = .wire 0x0BB := by decide
theorem test_table_word :
    decodeTableWord 16 0x0C05 = some (.selcol 0b00 0x05) ∧ decodeTableWord 16 0x0E2 = some .swReset ∧
    decodeTableWord 24 0x60012 = some (.fbw 0 0x12) ∧ decodeTableWord 16 0x2000 = none := by decide

/-! ### One step of each instruction, at the settle delay of 2 cycles that 95_test_vectors.md takes -/

/-- The machine after reset with host lines to drive. -/
def hostState (lines : List HostLine) : State := { State.reset with host := lines }

/-- The machine in a sequencer state, after reset otherwise. -/
def seqState (st : SeqState) (cnt : Nat) : State := { State.reset with st := st, cnt := cnt }

/-- A wire word on the pins in `S2`, for chips with the given selects (active low). -/
def wireState (cs1n cs2n : Bool) (dc : Bool) (d : Byte) (c : Chip) : State :=
  { State.reset with st := .s2, cs1n := cs1n, cs2n := cs2n, dcOut := dc, dOut := d, chip1 := c, chip2 := c }

/-- What a field reads after one cycle at `N_SETTLE = 2`. -/
def after {α : Type} (f : State → α) (s : State) : Option α := (nextState? (cycleStep 2 s)).map f

/-- V1, cycle 1. -/
theorem test_wrcmd : after (fun s => (s.st, s.dOut, s.cs1n)) (hostState [.request 0x03E2]) = some (.s1, 0xE2, true) := by
  decide
/-- R116: the data byte of `0x055A`. -/
theorem test_wrdata : after (fun s => (s.cop, s.dOut, s.cmsk)) (hostState [.request 0x055A]) = some (1, 0x5A, 0b01) := by
  decide
/-- V6: value 0xFC sends 0xB8. -/
theorem test_selpage : after (fun s => (s.dOut, s.cval)) (hostState [.request 0x08FC]) = some (0xB8, 0xFC) := by decide
/-- V7: value 0x80 sends 0x00, 0xFF sends 0x7F. -/
theorem test_selcol :
    after (·.dOut) (hostState [.request 0x0C80]) = some 0x00 ∧
    after (·.dOut) (hostState [.request 0x0CFF]) = some 0x7F := by decide
/-- V9, item 0. -/
theorem test_init : after (fun s => (s.dOut, s.cop)) (hostState [.request 0x13AB]) = some (0xE2, 4) := by decide
/-- V10, item 0. -/
theorem test_flush : after (fun s => (s.dOut, s.cop)) (hostState [.request 0x1400]) = some (0xB8, 5) := by decide
/-- V5. -/
theorem test_rsv6 : after (fun s => (s.errOp, s.st)) (hostState [.request 0x1800]) = some (true, .idle) := by decide
/-- R120's worked example. -/
theorem test_rsv7 : after (fun s => (s.errOp, s.dOut)) (hostState [.request 0x1C00]) = some (true, 0x00) := by decide
/-- Section 2.5, cycles 2 and 3. -/
theorem test_fbw :
    after (fun s => (s.readFb 487, s.errAddr)) (hostState [.action 0x7E7FF]) = some (0xFF, false) ∧
    after (fun s => (s.fb, s.errAddr)) (hostState [.action 0x7E855]) = some ([], true) := by decide
/-- Section 2.5, cycles 1 and 5. -/
theorem test_fbr :
    after (·.fbRdata) { hostState [.action 0x40000] with fb := [(0, 0x12)] } = some 0x12 ∧
    after (fun s => (s.fbRdata, s.errAddr)) { hostState [.action 0x5E800] with fbRdata := 0xFF } =
      some (0x00, true) := by decide
/-- Section 2.5, cycle 6. -/
theorem test_fbnop : after (fun s => (s.fb, s.errAddr)) (hostState [.action 0x3FFFF]) = some ([], false) := by decide
/-- Section 2.7, steps 3 and 4. -/
theorem test_data :
    after (fun s => (s.chip1.ramAt 1 79, s.chip1.col))
      (wireState false true true 0xAA { Chip.unknown with page := some 1, col := some 79 }) = some (some 0xAA, some 80) ∧
    after (fun s => (s.chip1.ram, s.chip1.col, s.chip1.page))
      (wireState false true true 0x55 { Chip.unknown with page := some 1, col := some 80, ram := [(159, 0xAA)] }) =
      some ([], none, some 1) := by decide
/-- Section 2.7, step 1; a chip whose select is high does not latch (V3). -/
theorem test_page :
    after (fun s => (s.chip1.page, s.chip2.page)) (wireState true false false 0xB9 Chip.unknown) =
      some (none, some 1) := by decide
/-- Section 2.7, step 2. -/
theorem test_column :
    after (fun s => (s.chip1.col, s.chip2.col)) (wireState false true false 0x4F Chip.unknown) =
      some (some 79, none) := by decide
/-- Section 2.7, step 14. -/
theorem test_sw_reset :
    after (·.chip2) (wireState false false false 0xE2 { Chip.unknown with col := some 127 }) = some Chip.unknown := by
  decide
/-- Section 2.7, step 8. -/
theorem test_display_on :
    after (·.chip1.on) (wireState false false false 0xAF Chip.unknown) = some (some .isOn) := by decide
/-- Section 2.7, step 9. -/
theorem test_start :
    after (fun s => (s.chip1.start, s.chip1.on)) (wireState false false false 0xC0 { Chip.unknown with on := some .isOn }) =
      some (some .zero, some .isOn) := by decide
/-- Section 2.7, step 7. -/
theorem test_other_command :
    after (·.chip1) (wireState false true false 0xAE { Chip.unknown with page := some 1, col := some 1 }) =
      some Chip.unknown := by decide
/-- V1, cycles 2 and 5: the latch events of both chips, and the strobe falling at the end of `S4`. -/
theorem test_sequencer :
    after (·.trace) { wireState false false false 0xE2 Chip.unknown with cycle := 2 } =
      some [⟨2, .one, false, 0xE2⟩, ⟨2, .two, false, 0xE2⟩] ∧
    after (fun s => (s.st, s.cnt, s.wrOut)) { seqState .s4 1 with wrOut := true } = some (.s5, 0, false) ∧
    after (fun s => (s.st, s.cnt)) (seqState .s3 0) = some (.s4, 2) := by decide
/-- V12: the FLUSH item of byte 249 is 257, and 61 is item 64. -/
theorem test_flush_items :
    item 5 0 0 257 = ⟨true, 0b10, .fb 249⟩ ∧ item 5 0 0 64 = ⟨true, 0b01, .fb 61⟩ ∧ flushIndex 300 = 308 := by decide
/-- Section 2.6: a request offered in a reset cycle is not accepted. -/
theorem test_reset_against_request :
    after (fun s => (s.st, s.errAddr))
      { hostState [.cycle { Inputs.quiet with rst := true, reqValid := true, reqWord := 0x03E2 }] with errAddr := true } =
      some (.idle, false) := by decide

/-! ### Placed words: what the host of this project asks of the numbered words -/

theorem test_placed_request : ((State.reset.withFetchWord 16 0x1800).inputs.reqWord, (State.reset.withFetchWord 16 0x1800).st) =
    (0x1800#13, SeqState.idle) := by decide
theorem test_placed_wire_runs :
    (nextState? (step (State.reset.withFetchWord 16 0x0AF))).map (·.chip2.on) = some (some .isOn) := by decide
theorem test_placed_action_runs :
    (nextState? (step (State.reset.withFetchWord 24 0x60012))).map (·.fb) = some [(0, 0x12)] := by decide

/-! ### Witnesses: for each statement with hypotheses, a state and operands that meet all of them -/

/-- The host levels of a reset cycle. -/
def resetLine : HostLine := .cycle { Inputs.quiet with rst := true }

theorem test_witness_DecodeOfEncodeIsIdentity :
    (Instr.otherCmd 0xAE).wf = true ∧ (Instr.selcol 0b10 0xFF).wf = true ∧ (Instr.fbw 511 0xFF).wf = true := by decide
theorem test_witness_StepRunsTheOfferedRequest :
    let s := hostState [.request 0x03E2]
    s.st = .idle ∧ s.inputs.rst = false ∧ s.inputs.reqValid = true ∧
      decode (.request s.inputs.reqWord) = .wrcmd 0b11 0xE2 ∧ (Instr.wrcmd 0b11 0xE2).wf = true := by decide
theorem test_witness_StepRunsTheFramebufferAction :
    let s := hostState [.action 0x63DFF]
    s.inputs.rst = false ∧ decode (.action s.inputs.actionWord) = .fbw 61 0xFF ∧ (Instr.fbw 61 0xFF).wf = true := by
  decide
theorem test_witness_StepRunsTheWireWordAtTheStrobe :
    let s := wireState false true false 0xAE Chip.unknown
    s.st = .s2 ∧ s.wrOut = false ∧ s.inputs.rst = false ∧
      decode (.wire (wireWordOf s.dcOut s.dOut)) = .otherCmd 0xAE ∧ (Instr.otherCmd 0xAE).wf = true := by decide
/-- Both clauses: the cycle after the reset resets again, or does not. -/
theorem test_witness_ResetCycleSetsEveryRegister :
    (hostState [resetLine]).inputs.rst = true ∧
    after (·.inputs.rst) (hostState [resetLine]) = some false ∧
    after (·.inputs.rst) (hostState [resetLine, resetLine]) = some true := by decide
theorem test_witness_ResetLeavesTheChipsAlone :
    (hostState [resetLine]).inputs.rst = true ∧ (nextState? (step (hostState [resetLine]))).isSome = true := by decide
/-- Each kind of number at both ends of its range, and the first number past it. -/
theorem test_witness_PlacedWordIsWhatTheStepRuns :
    tablePortWord 16 0x000 = .ok (.wire 0x000) ∧ tablePortWord 16 0x1FF = .ok (.wire 0x1FF) ∧
    tablePortWord 16 0x0200 = .ok (.request 0x0200) ∧ tablePortWord 16 0x1FFF = .ok (.request 0x1FFF) ∧
    tablePortWord 16 0x2000 = .error .wordTooWide ∧ tablePortWord 24 0x7FFFF = .ok (.action 0x7FFFF) ∧
    tablePortWord 24 0x80000 = .error .wordTooWide := by
  refine ⟨?_, ?_, ?_, ?_, ?_, ?_, ?_⟩ <;> rfl
theorem test_witness_WriteRequestsAreAccepted : State.reset.st = .idle := by decide
theorem test_witness_SelpageIsAccepted : (hostState [.request 0x0802]).st = .idle := by decide
theorem test_witness_SelcolIsAccepted : (hostState [.request 0x0E0A]).st = .idle := by decide
theorem test_witness_SequencesAreAccepted : (hostState [.request 0x1000]).st = .idle := by decide
theorem test_witness_ReservedOpcodesOnlyRaiseErrOp :
    (hostState [.request (requestWord 6 0b00 0x00)]).st = .idle ∧ 6 ≤ (6 : BitVec 3).toNat ∧
    (hostState [.request (requestWord 7 0b11 0xFF)]).st = .idle ∧ 6 ≤ (7 : BitVec 3).toNat := by decide
theorem test_witness_RequestsWaitOutsideIdle : (seqState .s1 0).st ≠ .idle := by decide
/-- The three cases: no request, the last operation's opcode, the first reserved one. -/
theorem test_witness_IdleAcceptsExactlyAnOfferedRequest :
    ((hostState []).st = .idle ∧ (hostState []).inputs.rst = false ∧ (hostState []).inputs.reqValid = false) ∧
    ((hostState [.request 0x17FF]).inputs.reqValid = true ∧
      (hostState [.request 0x17FF]).inputs.reqWord.toNat / 1024 = 5) ∧
    ((hostState [.request 0x1800]).inputs.reqValid = true ∧
      (hostState [.request 0x1800]).inputs.reqWord.toNat / 1024 = 6) := by decide
/-- A request line that is consumed and one that waits. -/
theorem test_witness_ReadyAndBusyAreCombinational :
    (hostState [.request 0x1000]).outputs.reqReady = true ∧
    ({ hostState [.request 0x1000] with st := .s6 } : State).outputs.reqReady = false := by decide
theorem test_witness_S1DrivesTheControlLines : (seqState .s1 0).st = .s1 ∧ (seqState .s1 0).inputs.rst = false := by decide
theorem test_witness_S2RaisesTheStrobeAndLatches :
    (seqState .s2 0).st = .s2 ∧ (seqState .s2 0).inputs.rst = false ∧ (seqState .s2 0).wrOut = false ∧
    (nextState? (step (seqState .s2 0))).map (·.wrOut) = some true := by decide
theorem test_witness_SettleCounterIsLoaded :
    (seqState .s3 0).inputs.rst = false ∧ (seqState .s3 0).st = .s3 ∧
    (seqState .s5 0).inputs.rst = false ∧ (seqState .s5 0).st = .s5 := by decide
/-- Both cases: the last cycle of the delay, and the one before. -/
theorem test_witness_S4CountsDownThenDropsTheStrobe :
    ∀ c ∈ [1, 2], (seqState .s4 c).st = .s4 ∧ (seqState .s4 c).inputs.rst = false ∧ 1 ≤ (seqState .s4 c).cnt := by decide
/-- The cases: counting, the last gap before an item of FLUSH, and the end of FLUSH. -/
theorem test_witness_S6CountsDownThenGoesOn :
    ∀ p ∈ [(2, 498#9), (1, 498#9), (1, 499#9)],
      let s := { seqState .s6 p.1 with cop := 5, idx := p.2 }
      s.st = .s6 ∧ s.inputs.rst = false ∧ 1 ≤ s.cnt ∧ s.cop.toNat ≤ 5 := by decide
theorem test_witness_UnusedSequencerStateHolds :
    (seqState .unused7 0).st = .unused7 ∧ (seqState .unused7 0).inputs.rst = false ∧
    ({ hostState [resetLine] with st := .unused7 } : State).inputs.rst = true := by decide
/-- The last page and column, and the last framebuffer item. -/
theorem test_witness_ItemFunctionIsTheTable :
    (item 5 0 0 (125 * 3 + 64 + 60)).src = .fb 487 ∧ (3 : Nat) < 4 ∧ (60 : Nat) < 61 := by decide
/-- The last byte of the left half, the first of the right half, and the last of all. -/
theorem test_witness_FlushIndexLocatesEveryByte :
    (60 < 488 ∧ (item 5 0 0 62).src = .fb 60) ∧ (61 < 488 ∧ (item 5 0 0 64).src = .fb 61) ∧
    (487 < 488 ∧ (item 5 0 0 499).src = .fb 487) := by decide
theorem test_witness_BusyBlockIgnoresRequests :
    let s := seqState .s6 2
    let s' := { s with host := [HostLine.request 0x1800] }
    s.st ≠ .idle ∧ s'.inputs.rst = s.inputs.rst ∧ s'.inputs.actionWord = s.inputs.actionWord ∧
      s'.inputs.reqValid ≠ s.inputs.reqValid := by decide
theorem test_witness_FramebufferActionsDoNotDisturbTheSequencer :
    let s := hostState [.request 0x1000]
    let s' := { s with host := [HostLine.cycle { Inputs.ofRequest 0x1000 with fbEn := true, fbWe := true }] }
    s'.inputs.rst = s.inputs.rst ∧ s'.inputs.reqValid = s.inputs.reqValid ∧ s'.inputs.reqWord = s.inputs.reqWord ∧
      s'.inputs.fbEn ≠ s.inputs.fbEn := by decide
theorem test_witness_FbwWritesExactlyOneByte : (487#9).toNat ≤ 487 ∧ 488 ≤ (488#9).toNat := by decide
theorem test_witness_FbrReadsOneByte : (487#9).toNat ≤ 487 ∧ 488 ≤ (488#9).toNat := by decide
/-- Both cases: a byte the step writes, and one it leaves. -/
theorem test_witness_FramebufferBytesChangeOnlyByFbw :
    let s := hostState [.action 0x7E7FF]
    (nextState? (step s)).isSome = true ∧ s.inputs.rst = false ∧ s.inputs.fbEn = true ∧ s.inputs.fbWe = true ∧
      s.inputs.fbAddr.toNat = 487 ∧ (487 : Nat) ≠ 0 := by decide
/-- FLUSH about to read byte 0 (item 2) while the host writes it (program P4, cycle 505). -/
theorem test_witness_FlushReadsTheOldByteAtTheSameEdge :
    let s := { hostState [.action 0x60055] with st := .s6, cnt := 1, cop := 5, idx := 1 }
    s.inputs.rst = false ∧ s.st = .s6 ∧ s.cnt = 1 ∧ s.cop = 5 ∧ s.idx.toNat + 1 < 500 ∧
      (item 5 s.cval s.cmsk (s.idx.toNat + 1)).src = .fb (0#9).toNat ∧
      s.inputs.fbEn = true ∧ s.inputs.fbWe = true ∧ s.inputs.fbAddr = 0 := by decide
theorem test_witness_ErrorFlagsAreSticky :
    (nextState? (step (hostState [.request 0x1800]))).map (·.errOp) = some true ∧
    (nextState? (step (hostState [.action 0x7E855]))).map (·.errAddr) = some true := by decide
theorem test_witness_FramebufferLayoutIsTheMap : (487 : Nat) < 488 ∧ (3 : Nat) < 4 ∧ (121 : Nat) < 122 := by decide
/-- The cases: a chip not selected, column 79, column 80, an unknown page, an unknown column. -/
theorem test_witness_DataByteIsStoredAndTheColumnAdvances :
    let c := { Chip.unknown with page := some 1, col := some 79 }
    let s := wireState false true true 0xAA c
    s.selectN .two = true ∧ s.selectN .one = false ∧
    ((s.chip .one).page = some 1 ∧ (s.chip .one).col = some 79 ∧ (79#7).toNat ≤ 79) ∧
    ((wireState false true true 0xAA { c with col := some 80 }).chip .one).col = some 80 ∧ 80 ≤ (80#7).toNat ∧
    ((wireState false true true 0xAA { c with page := none }).chip .one).page = none ∧
    ((wireState false true true 0xAA { c with col := none }).chip .one).col = none := by decide
/-- The first and last byte of each select command, and a chip that takes it. -/
theorem test_witness_PageAndColumnSelectSetOneField :
    (∀ d ∈ [0xB8#8, 0xBB#8], d.toNat / 4 = 0b101110) ∧ (∀ d ∈ [0x00#8, 0x7F#8], d.toNat < 128) ∧
    (wireState false true false 0xB8 Chip.unknown).cs1n = false := by decide
/-- Both kinds of instruction, at a selected chip and at one that is not. -/
theorem test_witness_ResetAndOtherCommandsForgetTheChip :
    (Instr.swReset = .swReset ∨ ∃ d, Instr.swReset = .otherCmd d) ∧
    (Instr.otherCmd 0xAE = .swReset ∨ ∃ d, Instr.otherCmd 0xAE = .otherCmd d) ∧
    (wireState false true false 0xE2 Chip.unknown).selectN .one = false ∧
    (wireState false true false 0xE2 Chip.unknown).selectN .two = true :=
  ⟨.inl rfl, .inr ⟨0xAE, rfl⟩, rfl, rfl⟩
/-- Chip 2 alike in both, selected or not; chip 1 differs in its state and its select. -/
theorem test_witness_ChipsAreIndependent :
    ∀ n ∈ [false, true],
      let s := wireState false n true 0xAA Chip.unknown
      let s' := { s with chip1 := { Chip.unknown with page := some 1 }, cs1n := true }
      s.chip .two = s'.chip .two ∧ s.selectN .two = s'.selectN .two ∧ s.chip .one ≠ s'.chip .one ∧
        s.selectN .two = n := by decide

/-- `WRDATA 0x5A, chip1` in `S2` (R78), the rest as after reset. -/
def inWrite : State :=
  { State.reset with st := .s2, cop := 1, cval := 0x5A, cmsk := 0b01, dOut := 0x5A, dcOut := true, cs1n := false }

theorem inWrite_inv : inWrite.Inv where
  stKnown := by decide
  idxInRange := by decide
  cntSettling := by decide
  cntElse := by decide
  strobe := by decide
  controls := by decide
  dataByte := fun _ b h => by
    have : Src.imm 0x5A = Src.imm b := h
    exact Src.imm.inj this
  fbWf := by decide
  ram1Wf := by decide
  ram2Wf := by decide

/-- In `S2` the strobe rises at chip 1 and not at chip 2. -/
theorem test_witness_ChipsLatchExactlyAtARisingStrobe :
    inWrite.Inv ∧ (nextState? (step inWrite)).map (·.wrOut) = some true ∧ inWrite.wrOut = false ∧
    inWrite.selectN .one = false ∧ inWrite.selectN .two = true := ⟨inWrite_inv, by decide, rfl, rfl, rfl⟩
theorem test_witness_StepKeepsTheInvariant : inWrite.Inv ∧ (nextState? (step inWrite)).isSome = true :=
  ⟨inWrite_inv, by decide⟩
theorem test_witness_StepKeepsMemoriesCanonical :
    let s := { hostState [.action 0x60012] with fb := [(1, 0x00), (487, 0xFF)] }
    s.fb.wf 488 = true ∧ s.chip1.ram.wf 320 = true ∧ s.chip2.ram.wf 320 = true ∧
      (nextState? (step s)).isSome = true := by decide
theorem test_witness_StepKeepsChipsEqualToTraceReplay :
    inWrite.Inv ∧ inWrite.ChipsReplayTrace ∧ (nextState? (step inWrite)).isSome = true :=
  ⟨inWrite_inv, ⟨rfl, rfl⟩, by decide⟩
theorem test_witness_StepKeepsLatchesSpaced :
    inWrite.Inv ∧ inWrite.LatchesSpaced ∧ inWrite.inputs.rst = false ∧ (nextState? (step inWrite)).isSome = true :=
  ⟨inWrite_inv, ⟨fun e h => absurd h List.not_mem_nil, List.Pairwise.nil⟩, rfl, by decide⟩
/-- A byte write about to start, and its first, second and later cycles (`N_SETTLE` is at least 1). -/
theorem test_witness_ByteWritePinTrace :
    (seqState .s1 0).NoReset ∧ (seqState .s1 0).st = .s1 ∧ (seqState .s1 0).wrOut = false ∧
    0 < 4 + 2 * Config.nSettle ∧ 5 < 4 + 2 * Config.nSettle := by
  refine ⟨fun l h => absurd h List.not_mem_nil, rfl, rfl, ?_, ?_⟩ <;> have := nSettle_pos <;> omega

/-- A request offered by a host that then does nothing: the hypothesis `Offers` of the whole operations. -/
theorem offers_alone (w : BitVec 13) : (hostState [.request w]).Offers w [] :=
  ⟨rfl, fun _ h => absurd h List.not_mem_nil⟩

theorem noFbWrite_alone (w : BitVec 13) : (hostState [.request w]).NoFbWrite := fun l h => by
  rw [List.mem_singleton.1 h]
  rfl

/-- The three counts of items: 1, 4 and 500. -/
theorem test_witness_OperationTiming :
    ((hostState [.request 0x0FFF]).Offers 0x0FFF [] ∧ (0x0FFF#13).toNat / 1024 = 3) ∧
    ((hostState [.request 0x1000]).Offers 0x1000 [] ∧ (0x1000#13).toNat / 1024 = 4) ∧
    ((hostState [.request 0x17FF]).Offers 0x17FF [] ∧ (0x17FF#13).toNat / 1024 ≤ 5) :=
  ⟨⟨offers_alone _, by decide⟩, ⟨offers_alone _, by decide⟩, ⟨offers_alone _, by decide⟩⟩
/-- Each of the four opcodes, with masks that select both chips, one and none. -/
theorem test_witness_SingleByteRequestsLatchOneByte :
    ∀ p ∈ [(0#3, 0b11#2), (1#3, 0b01#2), (2#3, 0b00#2), (3#3, 0b10#2), (3#3, 0b00#2)],
      let s := hostState [.request (requestWord p.1 p.2 0xFF)]
      s.st = .idle ∧ p.1.toNat ≤ 3 ∧ s.Offers (requestWord p.1 p.2 0xFF) [] := fun p h =>
  ⟨rfl, by revert p; decide, offers_alone _⟩
theorem test_witness_InitSendsItsFourBytes :
    let s := hostState [.request (requestWord 4 0b00 0x00)]
    s.st = .idle ∧ s.Offers (requestWord 4 0b00 0x00) [] := ⟨rfl, offers_alone _⟩
theorem test_witness_FlushSendsEveryByteOnce :
    let s := hostState [.request (requestWord 5 0b00 0x00)]
    s.st = .idle ∧ s.Offers (requestWord 5 0b00 0x00) [] ∧ s.NoFbWrite := ⟨rfl, offers_alone _, noFbWrite_alone _⟩
/-- A host that writes byte 0 during the FLUSH, and bytes on both sides of the middle of a page. -/
theorem test_witness_FlushSendsEachByteAsOfItsReadEdge :
    let s := hostState [.request (requestWord 5 0b00 0x00), .action 0x600AA]
    s.st = .idle ∧ s.Offers (requestWord 5 0b00 0x00) [.action 0x600AA] ∧ 60 < 488 ∧ 60 % 122 ≤ 60 ∧
      487 < 488 ∧ ¬ 61 % 122 ≤ 60 :=
  ⟨rfl, ⟨rfl, by decide⟩, by decide, by decide, by decide, by decide⟩
theorem test_witness_FlushIsLossless :
    let s := hostState [.request (requestWord 5 0b11 0xFF)]
    s.st = .idle ∧ s.Offers (requestWord 5 0b11 0xFF) [] ∧ s.NoFbWrite := ⟨rfl, offers_alone _, noFbWrite_alone _⟩
theorem test_witness_PanelShowsTheFramebufferAfterFlush :
    let c := { Chip.unknown with on := some .isOn, start := some .zero }
    let s := { hostState [.request (requestWord 5 0b00 0x00)] with chip1 := c, chip2 := c }
    s.st = .idle ∧ s.Offers (requestWord 5 0b00 0x00) [] ∧ s.NoFbWrite ∧
      ∀ j, (s.chip j).on = some .isOn ∧ (s.chip j).start = some .zero :=
  ⟨rfl, offers_alone _, noFbWrite_alone _, fun j => by cases j <;> exact ⟨rfl, rfl⟩⟩
/-- One state for each kind of line. -/
theorem test_witness_HostLinesLastAsTheRuleSays :
    (hostState []).host = [] ∧ (hostState [.request 0x1000]).host = .request 0x1000 :: [] ∧
    (hostState [.action 0x60012]).host = .action 0x60012 :: [] ∧ (hostState [.wait]).host = .wait :: [] ∧
    (hostState [.idle 0]).host = .idle 0 :: [] ∧ (hostState [.idle 1]).host = .idle (0 + 1) :: [] ∧
    (hostState [resetLine]).host = resetLine :: [] := by decide
/-- The last operand each line accepts, and the first it does not (R79). -/
theorem test_witness_AssemblerEncodesTheLines :
    AsmLine.assemble (.selpage 3) = some (.request 0x0803) ∧ AsmLine.assemble (.selpage 4) = none ∧
    AsmLine.assemble (.selcol 127 0b10) = some (.request 0x0E7F) ∧ AsmLine.assemble (.selcol 128 0b10) = none ∧
    AsmLine.assemble (.fbw 511 0x00) = some (.action 0x7FF00) ∧ AsmLine.assemble (.fbw 512 0x00) = none ∧
    AsmLine.assemble (.fbr 511) = some (.action 0x5FF00) ∧ AsmLine.assemble (.fbr 512) = none ∧
    assembleAll [.wait, .idle 1] = some [.wait, .idle 0] ∧ assembleAll [.wait, .idle 0] = none := by decide
/-- 3 microseconds at 0.5 MHz need 1.5 cycles, so 2. -/
theorem test_witness_SettleFormulaMeetsTheRequirement :
    1 ≤ 2 ∧ 3 * 500000 ≤ 2 * 1000000 ∧ Config.settleCycles 3 500000 = 2 := by decide

end Sys2Proof.Tests
end

section
/-! R7 and R230: the settle formula as a least bound. -/

namespace Sys2Proof.Machine

open Sys2Proof

/-- The formula of R7 is the lower adjoint of "a delay of `n ≥ 1` cycles covers the requirement": what makes it the
least such delay. -/
theorem settleCycles_le_iff {us hz n : Nat} :
    Config.settleCycles us hz ≤ n ↔ 1 ≤ n ∧ us * hz ≤ n * 1000000 := by
  have ceil_le : (us * hz + 999999) / 1000000 ≤ n ↔ us * hz ≤ n * 1000000 := by omega
  rw [Config.settleCycles, max_le_iff, ceil_le]

/-- `N_SETTLE` is at least 1 by R7, so R230's requirement alone decides the comparison with the formula. -/
theorem meetsSettle_iff_settleCycles_le {us hz : Nat} :
    Config.meetsSettle us hz ↔ Config.settleCycles us hz ≤ Config.nSettle := by
  rw [settleCycles_le_iff, Config.meetsSettle, and_iff_right nSettle_pos]

/-- Settles O60: each clause reads the adjunction `settleCycles_le_iff` at the formula itself, at `n`, or at
`N_SETTLE`. -/
theorem settleFormulaMeetsTheRequirement : Obligations.SettleFormulaMeetsTheRequirement := by
  intro us hz
  obtain ⟨one_le, covers⟩ := settleCycles_le_iff.1 (le_refl (Config.settleCycles us hz))
  exact ⟨one_le, covers, fun _ hn hcov => settleCycles_le_iff.2 ⟨hn, hcov⟩, meetsSettle_iff_settleCycles_le⟩

end Sys2Proof.Machine
end

section
/-! What the parts of a cycle read: the sequencer neither the host nor the flags, the framebuffer port of the inputs
only its action word; and what each part does to the two error flags. -/

namespace Sys2Proof.Machine

open Sys2Proof

/-! ### The sequencer's edge -/

/-- In a busy state the sequencer's edge does not look at the inputs (R114). -/
theorem seqNext_busy {s : State} (hb : s.st ≠ .idle) (n : Nat) (inp : Inputs) : s.seqNext n inp = s.seqBusy n :=
  if_neg hb

/-- With a request offered in `IDLE`, the sequencer's edge is its acceptance (R103). -/
theorem seqNext_request {s : State} (hi : s.st = .idle) {inp : Inputs} (hv : inp.reqValid = true) (n : Nat) :
    s.seqNext n inp = s.requestNext inp.reqWord := by
  rw [State.seqNext, if_pos hi, if_pos hv]

/-- With no request in `IDLE`, the sequencer stays (R103). -/
theorem seqNext_quiet {s : State} (hi : s.st = .idle) {inp : Inputs} (hv : inp.reqValid = false) (n : Nat) :
    s.seqNext n inp = s := by
  rw [State.seqNext, if_pos hi, hv, if_neg Bool.false_ne_true]

/-- In the state 7 no rule fires (93 U8). -/
theorem seqBusy_unused7 {s : State} (h : s.st = .unused7) (n : Nat) : s.seqBusy n = s := by
  simp only [State.seqBusy, h]

/-- A busy state's edge leaves the flags and the host's program alone (R28, R114). -/
theorem seqBusy_passes {s : State} (hb : s.st ≠ .idle) (n : Nat) :
    (s.seqBusy n).errOp = s.errOp ∧ (s.seqBusy n).errAddr = s.errAddr ∧ (s.seqBusy n).host = s.host := by
  have hkept : (s.cycleNext n).errOp = s.errOp := (kept_cycleNext n hb).errOp
  have hframe := seqNext_frame n s.inputs s
  rw [State.cycleNext, seqNext_busy hb] at hkept
  rw [seqNext_busy hb] at hframe
  exact ⟨hkept, hframe.errAddr, hframe.host⟩

/-- A busy state's edge does not read the flags or the host's program either (R28, R114). -/
theorem seqBusy_unread (n : Nat) (s : State) (e₁ e₂ : Bool) (lines : List HostLine) :
    State.seqBusy n { s with errOp := e₁, errAddr := e₂, host := lines } =
      { s.seqBusy n with errOp := e₁, errAddr := e₂, host := lines } := by
  cases s with
  | mk st =>
    cases st with
    | s4 =>
      simp only [State.seqBusy, State.seqS4]
      split <;> rfl
    | s6 =>
      simp only [State.seqBusy, State.seqS6, State.nextItem]
      split
      · split <;> rfl
      · rfl
    | _ => rfl

/-- Acceptance reads no flag; a reserved opcode sets `err_op`, any other request passes both flags on (R103). -/
theorem requestNext_flags (w : BitVec 13) (s : State) (e₁ e₂ : Bool) :
    State.requestNext w { s with errOp := e₁, errAddr := e₂ } =
      { s.requestNext w with
        errOp := (State.requestNext w { s with errOp := e₁, errAddr := e₂ }).errOp, errAddr := e₂ } := by
  unfold State.requestNext
  split <;> rfl

/-- No register but the flags themselves takes its next value from a flag (R28). -/
theorem seqNext_flags (n : Nat) (inp : Inputs) (s : State) (e₁ e₂ : Bool) :
    State.seqNext n inp { s with errOp := e₁, errAddr := e₂ } =
      { s.seqNext n inp with
        errOp := (State.seqNext n inp { s with errOp := e₁, errAddr := e₂ }).errOp, errAddr := e₂ } := by
  set s' : State := { s with errOp := e₁, errAddr := e₂ }
  by_cases hi : s.st = .idle
  · have hi' : s'.st = .idle := hi
    cases hv : inp.reqValid
    · rw [seqNext_quiet hi hv, seqNext_quiet hi' hv]
    · rw [seqNext_request hi hv, seqNext_request hi' hv]
      exact requestNext_flags ..
  · have hb' : s'.st ≠ .idle := hi
    have hunread : s'.seqBusy n = { s.seqBusy n with errOp := e₁, errAddr := e₂, host := s.host } :=
      seqBusy_unread n s e₁ e₂ s.host
    obtain ⟨-, -, hhost⟩ := seqBusy_passes hi n
    rw [seqNext_busy hi, seqNext_busy hb', hunread, ← hhost]

/-! ### The framebuffer port's edge -/

/-- The framebuffer port sees of the inputs their action word alone (R74, R162). -/
theorem fbPort_of_actionWord {inp inp' : Inputs} (h : inp'.actionWord = inp.actionWord) (s : State) :
    s.fbAfter inp' = s.fbAfter inp ∧ s.fbRdataAfter inp' = s.fbRdataAfter inp ∧
      s.errAddrAfter inp' = s.errAddrAfter inp := by
  have hexec := exec_action inp' s
  rw [h, exec_action inp s, Host.Outcome.next.injEq, State.mk.injEq] at hexec
  simp only [true_and, and_true] at hexec
  obtain ⟨haddr, hrdata, hfb⟩ := hexec
  exact ⟨hfb.symm, hrdata.symm, haddr.symm⟩

/-- Outside `S2` a cycle without reset is the sequencer's edge and the framebuffer port's; no chip changes (R100,
R172). -/
theorem cycleNext_of_ne_s2 {s : State} (h2 : s.st ≠ .s2) (n : Nat) :
    s.cycleNext n =
      { s.seqNext n s.inputs with
        fb := s.fbAfter s.inputs, fbRdata := s.fbRdataAfter s.inputs, errAddr := s.errAddrAfter s.inputs
        host := s.hostAfter, cycle := s.cycle + 1 } := by
  have hframe := seqNext_frame n s.inputs s
  rw [State.cycleNext, chipAfter_of_ne h2, chipAfter_of_ne h2, ← hframe.chip1, ← hframe.chip2]

/-! ### The error flags (R28, R201) -/

theorem toNat_requestOp (w : BitVec 13) : (requestOp w).toNat = w.toNat / 1024 := by
  have hw := w.isLt
  rw [requestOp, BitVec.extractLsb'_toNat, Nat.shiftRight_eq_div_pow]
  omega

theorem not_fbInRange (a : BitVec 9) : (!fbInRange a) = decide (488 ≤ a.toNat) := by
  rw [fbInRange, ← decide_not, decide_eq_decide]
  omega

/-- Accepting a request sets `err_op` for the opcodes 6 and 7 alone (R103, R120). -/
theorem requestNext_errOp (w : BitVec 13) (s : State) :
    (s.requestNext w).errOp = (s.errOp || decide (6 ≤ w.toNat / 1024)) := by
  rw [State.requestNext, toNat_requestOp]
  split
  · next hle =>
    have hno : ¬ 6 ≤ w.toNat / 1024 := by omega
    simp [hno]
  · next hgt =>
    have hyes : 6 ≤ w.toNat / 1024 := by omega
    simp [hyes]

/-- Over the sequencer's edge `err_op` is set by an accepted opcode 6 or 7 and by nothing else (R28). -/
theorem seqNext_errOp (n : Nat) (inp : Inputs) (s : State) :
    (s.seqNext n inp).errOp =
      (s.errOp || (decide (s.st = .idle) && inp.reqValid && decide (6 ≤ inp.reqWord.toNat / 1024))) := by
  by_cases hi : s.st = .idle
  · cases hv : inp.reqValid
    · simp [seqNext_quiet hi hv]
    · simp [seqNext_request hi hv, requestNext_errOp, hi]
  · simp [seqNext_busy hi, seqBusy_passes hi, hi]

end Sys2Proof.Machine
end

section
/-! The invariant of `Inv` in its two halves: what the sequencer owns, kept by each of its edges, and the canonical
form of the memories, kept by a framebuffer action and by a latched word. -/

namespace Sys2Proof.Machine

open Sys2Proof

/-! ### The sequencer's half (R23, R26, R78) -/

/-- What the sequencer's state says of the settle counter and of the strobe (R78, R107, R109). -/
structure SeqTiming (st : SeqState) (cnt : Nat) (wr : Bool) : Prop where
  known : st ≠ .unused7
  settling : st.settling = true → 1 ≤ cnt ∧ cnt ≤ Config.nSettle
  elsewhere : st.settling = false → cnt = 0
  strobe : wr = st.strobeHigh

/-- The half of `State.Inv` that speaks of registers the sequencer writes. -/
structure State.SeqInv (s : State) : Prop where
  timing : SeqTiming s.st s.cnt s.wrOut
  idxInRange : s.idx.toNat < itemCount s.cop
  controls : s.st.controlsDriven = true →
    s.dcOut = s.item.dc ∧ s.cs1n = !maskChip1 s.item.mask ∧ s.cs2n = !maskChip2 s.item.mask
  dataByte : s.st ≠ .idle → ∀ b, s.item.src = .imm b → s.dOut = b

/-- The other half: the three memories are canonical (R50, R170). -/
structure State.MemoriesWf (s : State) : Prop where
  fb : s.fb.wf 488 = true
  ram1 : s.chip1.ram.wf 320 = true
  ram2 : s.chip2.ram.wf 320 = true

theorem inv_iff {s : State} : s.Inv ↔ s.SeqInv ∧ s.MemoriesWf :=
  ⟨fun h => ⟨⟨⟨h.stKnown, h.cntSettling, h.cntElse, h.strobe⟩, h.idxInRange, h.controls, h.dataByte⟩,
      h.fbWf, h.ram1Wf, h.ram2Wf⟩,
    fun ⟨hseq, hmem⟩ => ⟨hseq.timing.known, hseq.idxInRange, hseq.timing.settling, hseq.timing.elsewhere,
      hseq.timing.strobe, hseq.controls, hseq.dataByte, hmem.fb, hmem.ram1, hmem.ram2⟩⟩

/-- Outside the settle delays the counter is 0. -/
theorem SeqTiming.of_not_settling {st : SeqState} (hk : st ≠ .unused7) (hs : st.settling = false) :
    SeqTiming st 0 st.strobeHigh :=
  ⟨hk, fun h => absurd (hs.symm.trans h) Bool.false_ne_true, fun _ => rfl, rfl⟩

/-- In a settle delay the counter is 1 to `N_SETTLE`. -/
theorem SeqTiming.of_settling {st : SeqState} {c : Nat} (hs : st.settling = true) (hpos : 1 ≤ c)
    (hle : c ≤ Config.nSettle) : SeqTiming st c st.strobeHigh :=
  ⟨by rintro rfl; exact Bool.false_ne_true hs, fun _ => ⟨hpos, hle⟩,
    fun h => absurd (h.symm.trans hs) Bool.false_ne_true, rfl⟩

/-- A settle delay that is not at its last cycle counts down and stays in bounds (R107, R109). -/
theorem SeqTiming.countDown {st : SeqState} {c : Nat} {wr : Bool} (h : SeqTiming st c wr) (hs : st.settling = true)
    (hlast : c ≠ 1) (n : Nat) : SeqTiming st (Machine.countDown n c) wr := by
  obtain ⟨hpos, hle⟩ := h.settling hs
  rw [countDown_of_pos (by omega), h.strobe]
  exact .of_settling hs (by omega) (by omega)

theorem State.SeqInv.timingAt {s : State} (h : s.SeqInv) {st : SeqState} (hst : s.st = st) :
    SeqTiming st s.cnt s.wrOut := hst ▸ h.timing

/-- Once the control lines carry the item, an edge that moves only the state, the counter, the strobe and the trace
keeps the invariant if it keeps their timing: position, item, data bus and control lines stay. -/
theorem State.SeqInv.within {s : State} (h : s.SeqInv) (hc : s.st.controlsDriven = true) {st : SeqState} {cnt : Nat}
    {wr : Bool} (ht : SeqTiming st cnt wr) (events : List LatchEvent) :
    State.SeqInv { s with st := st, cnt := cnt, wrOut := wr, trace := events } where
  timing := ht
  idxInRange := h.idxInRange
  controls _ := h.controls hc
  dataByte _ := h.dataByte fun hi => by simp [hi] at hc

/-- The invariant at the start of an item (R102): only its position and its byte matter yet, since the control lines
keep their old levels in `S1`. -/
theorem seqInv_of_entered {s : State} (hst : s.st = .s1) (hcnt : s.cnt = 0) (hwr : s.wrOut = false)
    (hidx : s.idx.toNat < itemCount s.cop) (hd : ∀ b, s.item.src = .imm b → s.dOut = b) : s.SeqInv where
  timing := by
    rw [hst, hcnt, hwr]
    exact .of_not_settling (by decide) rfl
  idxInRange := hidx
  controls hc := by simp [hst] at hc
  dataByte _ := hd

/-- R103: acceptance of a request. -/
theorem seqInv_requestNext {s : State} (h : s.SeqInv) (hi : s.st = .idle) (w : BitVec 13) :
    (s.requestNext w).SeqInv := by
  have ht := h.timingAt hi
  unfold State.requestNext
  split
  · next hop =>
    refine seqInv_of_entered rfl (ht.elsewhere rfl) ht.strobe ?_ fun b hb => ?_
    · show 0 < itemCount (requestOp w)
      revert hop
      generalize requestOp w = op
      revert op
      decide
    · show State.sourceByte _ _ = b
      exact congrArg _ hb
  · exact ⟨h.timing, h.idxInRange, h.controls, h.dataByte⟩

/-- R104: the control lines take the item's levels. -/
theorem seqInv_seqS1 {s : State} (h : s.SeqInv) (hst : s.st = .s1) : s.seqS1.SeqInv where
  timing := by
    rw [seqS1_cnt, (h.timingAt hst).elsewhere rfl]
    exact .of_not_settling (by simp) rfl
  idxInRange := h.idxInRange
  controls _ := ⟨rfl, rfl, rfl⟩
  dataByte _ := h.dataByte (by simp [hst])

/-- R109: the edge that ends an item, to the next one or to `IDLE`. -/
theorem seqInv_nextItem {s : State} (h : s.SeqInv) (hst : s.st = .s6) : s.nextItem.SeqInv := by
  have ht := h.timingAt hst
  by_cases hmore : s.idx.toNat + 1 < itemCount s.cop
  · have hidx : (s.idx + 1).toNat = s.idx.toNat + 1 := by
      have hlt : s.idx.toNat + 1 < 512 := by have := itemCount_le s.cop; omega
      rw [BitVec.toNat_add]
      exact Nat.mod_eq_of_lt hlt
    rw [nextItem_more hmore]
    refine seqInv_of_entered rfl rfl ht.strobe (hidx ▸ hmore) fun b hb => ?_
    simp only [State.item, enterItem_cop, enterItem_cval, enterItem_cmsk, hidx] at hb
    rw [enterItem_dOut, hb]
    rfl
  · rw [nextItem_done hmore]
    exact h.within (by simp [hst]) (ht.strobe ▸ .of_not_settling (by decide) rfl) s.trace

/-- R104 to R109: each busy state's edge keeps the sequencer's half. -/
theorem seqInv_seqBusy {s : State} (h : s.SeqInv) : (s.seqBusy Config.nSettle).SeqInv := by
  have hpos := nSettle_pos
  unfold State.seqBusy
  cases hst : s.st with
  | idle => exact h
  | s1 => exact seqInv_seqS1 h hst
  | s2 =>
    have hcnt := (h.timingAt hst).elsewhere rfl
    exact h.within (by simp [hst]) (hcnt ▸ .of_not_settling (by decide) rfl) _
  | s3 => exact h.within (by simp [hst]) ((h.timingAt hst).strobe ▸ .of_settling rfl hpos le_rfl) _
  | s4 =>
    by_cases hlast : s.cnt = 1
    · exact seqS4_last _ hlast ▸ h.within (by simp [hst]) (.of_not_settling (by decide) rfl) _
    · exact seqS4_more _ hlast ▸ h.within (by simp [hst]) (h.timing.countDown (by simp [hst]) hlast _) _
  | s5 => exact h.within (by simp [hst]) ((h.timingAt hst).strobe ▸ .of_settling rfl hpos le_rfl) _
  | s6 =>
    by_cases hlast : s.cnt = 1
    · exact seqS6_last _ hlast ▸ seqInv_nextItem h hst
    · exact seqS6_more _ hlast ▸ h.within (by simp [hst]) (h.timing.countDown (by simp [hst]) hlast _) _
  | unused7 => exact absurd hst h.timing.known

/-- R103 to R109: so does the sequencer's edge in every state. -/
theorem seqInv_seqNext {s : State} (h : s.SeqInv) (inp : Inputs) : (s.seqNext Config.nSettle inp).SeqInv := by
  by_cases hi : s.st = .idle
  · cases hv : inp.reqValid
    · rwa [seqNext_quiet hi hv]
    · rw [seqNext_request hi hv]
      exact seqInv_requestNext h hi _
  · rw [seqNext_busy hi]
    exact seqInv_seqBusy h

/-- R220: a reset puts the sequencer in order from any state. -/
theorem seqInv_resetBlock (s : State) (rest : List HostLine) : (s.resetBlock.tick rest).SeqInv where
  timing := .of_not_settling (st := .idle) (by decide) rfl
  idxInRange := show (0#9).toNat < itemCount 0 by decide
  controls hc := absurd hc Bool.false_ne_true
  dataByte hi := absurd rfl hi

/-! ### The memories' half (R50, R170) -/

/-- R160: a framebuffer action writes inside the framebuffer or not at all. -/
theorem fbAfter_wf {s : State} (h : s.fb.wf 488 = true) (inp : Inputs) : (s.fbAfter inp).wf 488 = true := by
  unfold State.fbAfter
  split
  · next hwrite =>
    simp only [Bool.and_eq_true, fbInRange, decide_eq_true_eq] at hwrite
    exact wf_write h (by omega)
  · exact h

/-- R173: a data byte goes inside the chip's memory, or the memory is forgotten. -/
theorem takeData_ramWf {c : Chip} (h : c.ram.wf 320 = true) (d : Byte) : (c.takeData d).ram.wf 320 = true := by
  unfold Chip.takeData
  split
  · next p k _ _ =>
    split
    · next hk =>
      have hp := p.isLt
      exact wf_write h (by unfold ramAddress; omega)
    · rfl
  · rfl

/-- R173 to R179: a latched word stores inside the chip's memory, forgets it, or leaves it. -/
theorem latch_ramWf {c : Chip} (h : c.ram.wf 320 = true) (dc : Bool) (d : Byte) :
    (c.latch dc d).ram.wf 320 = true := by
  unfold Chip.latch
  cases decode (.wire (wireWordOf dc d)) with
  | data d => exact takeData_ramWf h d
  | swReset | otherCmd => rfl
  | _ => exact h

theorem chipAfter_ramWf {c : Chip} (h : c.ram.wf 320 = true) (s : State) (selectN : Bool) :
    (s.chipAfter selectN c).ram.wf 320 = true := by
  unfold State.chipAfter
  split
  · exact latch_ramWf h _ _
  · exact h

/-! ### One cycle -/

theorem inv_reset {s : State} (h : s.MemoriesWf) (rest : List HostLine) : (s.resetBlock.tick rest).Inv :=
  inv_iff.2 ⟨seqInv_resetBlock s rest, h.fb, h.ram1, h.ram2⟩

theorem inv_cycleNext {s : State} (h : s.Inv) : (s.cycleNext Config.nSettle).Inv := by
  obtain ⟨hseq, hmem⟩ := inv_iff.1 h
  obtain ⟨htiming, hidx, hcontrols, hdata⟩ := seqInv_seqNext hseq s.inputs
  exact inv_iff.2 ⟨⟨htiming, hidx, hcontrols, hdata⟩, fbAfter_wf hmem.fb _, chipAfter_ramWf hmem.ram1 s _,
    chipAfter_ramWf hmem.ram2 s _⟩

/-- Settles O46: a reset needs only the memories of the state before it; any other cycle is the sequencer's edge, the
chips' and the framebuffer port's, each of which keeps its part. -/
theorem stepKeepsTheInvariant : Obligations.StepKeepsTheInvariant := by
  intro s t hinv hstep
  rw [step_eq, Host.Outcome.next.injEq] at hstep
  subst hstep
  split
  · exact inv_reset (inv_iff.1 hinv).2 _
  · exact inv_cycleNext hinv

end Sys2Proof.Machine
end

section
/-! The sequencer's side of a step: requests while busy, the sticky flags, the acceptance step, `busy` and `req_ready`,
and the unused state. -/

namespace Sys2Proof.Machine

open Sys2Proof

/-- In a busy cycle without reset, of the host's program only the framebuffer action matters (R114). -/
theorem cycleNext_host {s : State} (hb : s.st ≠ .idle) (n : Nat) (lines : List HostLine)
    (hact : ({ s with host := lines } : State).inputs.actionWord = s.inputs.actionWord) :
    State.cycleNext n { s with host := lines } =
      { s.cycleNext n with host := ({ s with host := lines } : State).hostAfter } := by
  obtain ⟨hfb, hrdata, haddr⟩ := fbPort_of_actionWord hact { s with host := lines }
  have hunread : State.seqBusy n { s with host := lines } =
      { s.seqBusy n with errOp := s.errOp, errAddr := s.errAddr, host := lines } :=
    seqBusy_unread n s s.errOp s.errAddr lines
  obtain ⟨herrOp, -, -⟩ := seqBusy_passes hb n
  rw [State.cycleNext, State.cycleNext, seqNext_busy (s := { s with host := lines }) hb, hunread,
    seqNext_busy hb, hfb, hrdata, haddr, ← herrOp]
  rfl

/-- Settles O30: a reset reads no register, and a busy cycle reads of the host only the framebuffer action. -/
theorem busyBlockIgnoresRequests : Obligations.BusyBlockIgnoresRequests := by
  intro s lines hb s' hrst hact
  refine ⟨_, _, step_eq s, step_eq s', ?_⟩
  rw [hrst]
  split
  · rfl
  · exact cycleNext_host hb _ _ hact

/-- A cycle without reset passes no flag on but to itself (R28). -/
theorem cycleNext_flags (n : Nat) (s : State) (e₁ e₂ : Bool) :
    State.cycleNext n { s with errOp := e₁, errAddr := e₂ } =
      { s.cycleNext n with
        errOp := (State.cycleNext n { s with errOp := e₁, errAddr := e₂ }).errOp
        errAddr := (State.cycleNext n { s with errOp := e₁, errAddr := e₂ }).errAddr } := by
  have hseq := seqNext_flags n s.inputs s e₁ e₂
  have hinp : ({ s with errOp := e₁, errAddr := e₂ } : State).inputs = s.inputs := rfl
  unfold State.cycleNext
  rw [hinp, hseq]
  rfl

/-- Settles O37: the two flags after a cycle are `seqNext_errOp` and `errAddrAfter`, and nothing else of the next state
is a function of them. -/
theorem errorFlagsAreSticky : Obligations.ErrorFlagsAreSticky := by
  refine ⟨fun s t hstep => ?_, fun s e₁ e₂ => ⟨_, _, step_eq s, step_eq _, ?_⟩⟩
  · rw [step_eq, Host.Outcome.next.injEq] at hstep
    subst hstep
    cases s.inputs.rst
    · refine ⟨seqNext_errOp .., ?_⟩
      rw [← not_fbInRange]
      rfl
    · exact ⟨rfl, rfl⟩
  · have hinp : ({ s with errOp := e₁, errAddr := e₂ } : State).inputs = s.inputs := rfl
    rw [hinp]
    split
    · rfl
    · exact cycleNext_flags _ s e₁ e₂

/-- Settles O6: acceptance is the sequencer's edge in `IDLE`, it leaves the framebuffer port's fields as they were, and
no chip latches in `IDLE`. -/
theorem stepRunsTheOfferedRequest : Obligations.StepRunsTheOfferedRequest := by
  rintro s i hi hrst hv rfl -
  refine ⟨_, _, exec_request hi _, exec_action .., ?_⟩
  have hseq := seqNext_request hi hv Config.nSettle
  have hframe := seqNext_frame Config.nSettle s.inputs s
  rw [step_run hrst, cycleNext_of_ne_s2 (by simp [hi]), ← hseq, fbAfter_congr _ hframe.fb,
    fbRdataAfter_congr _ hframe.fb hframe.fbRdata, errAddrAfter_congr _ hframe.errAddr]

/-- Settles O19: the six operations and the two reserved opcodes each test for `IDLE` first. -/
theorem requestsWaitOutsideIdle : Obligations.RequestsWaitOutsideIdle := by
  intro s m v hb i hmem
  simp only [List.mem_cons, List.not_mem_nil, or_false] at hmem
  rcases hmem with rfl | rfl | rfl | rfl | rfl | rfl | rfl | rfl
  · exact acceptOperation_busy hb 0 m v
  · exact acceptOperation_busy hb 1 m v
  · exact acceptOperation_busy hb 2 m v
  · exact acceptOperation_busy hb 3 m v
  · exact acceptOperation_busy hb 4 m v
  · exact acceptOperation_busy hb 5 m v
  · exact acceptReserved_busy hb
  · exact acceptReserved_busy hb

theorem busy_eq (s : State) : s.busy = decide (s.st ≠ .idle) := by
  rw [State.busy, bne, beq_eq_decide, decide_not]

theorem reqReady_eq (s : State) (inp : Inputs) : s.reqReady inp = (decide (s.st = .idle) && !inp.rst) := by
  rw [State.reqReady, beq_eq_decide]

/-- Settles O21: a request line drives no reset, so what becomes of it is `hostAfter`'s test of `req_ready`. -/
theorem readyAndBusyAreCombinational : Obligations.ReadyAndBusyAreCombinational := by
  refine fun s => ⟨busy_eq s, reqReady_eq s s.inputs, fun w rest hhost => ?_⟩
  have hinp : s.inputs = Inputs.ofRequest w := by simp [State.inputs, hhost, HostLine.drive]
  refine ⟨_, step_run (by rw [hinp]; rfl), ?_⟩
  show s.hostAfter = if s.reqReady s.inputs = true then rest else s.host
  simp only [State.hostAfter, hinp, hhost]

/-- Settles O27: no sequencer rule fires in the state 7, and no strobe rises there. -/
theorem unusedSequencerStateHolds : Obligations.UnusedSequencerStateHolds := by
  intro s h7
  refine ⟨_, step_eq s, ?_⟩
  split
  · rfl
  · rw [cycleNext_of_ne_s2 (by simp [h7]), seqNext_busy (by simp [h7]), seqBusy_unused7 h7]

end Sys2Proof.Machine
end

section
/-! The framebuffer's layout (R50, R51, R56), and the item of a FLUSH that sends a given byte (R140, R145). -/

namespace Sys2Proof.Machine

open Sys2Proof

theorem fbAddress_page_column (a : Nat) : fbAddress (fbPage a) (fbColumn a) = a := Nat.div_add_mod a 122

/-- A panel column is a chip's first column plus the chip's own column (R56). -/
theorem firstColumn_add_chipColumn (c : Nat) : (columnChip c).firstColumn + chipColumn c = c := by
  unfold columnChip chipColumn
  split
  · exact Nat.zero_add c
  · show 61 + (c - 61) = c
    omega

/-- Settles O38: division with remainder by 122, and the split of a page at column 61. -/
theorem framebufferLayoutIsTheMap : Obligations.FramebufferLayoutIsTheMap := by
  refine ⟨fun a ha => ?_, fun r hr c hc => ?_, fun s x y => rfl⟩
  · have hpage : a / 122 < 4 := by omega
    exact ⟨rfl, rfl, hpage, Nat.mod_lt a (by decide), fbAddress_page_column a⟩
  · have hlt : 122 * r + c < 488 := by omega
    have hchip : columnChip c = if c < 61 then .two else .one := if_congr Nat.lt_succ_iff.symm rfl rfl
    have hcol : chipColumn c = c % 61 := by
      unfold chipColumn
      split <;> omega
    exact ⟨rfl, hlt, hchip, hcol, (firstColumn_add_chipColumn c).symm⟩

/-- The mask that selects one chip (R12). -/
def ChipId.mask : ChipId → Mask
  | .one => Mask.chip1
  | .two => Mask.chip2

theorem maskHas_mask (j : ChipId) : maskHas j j.mask = true := by
  cases j <;> decide

theorem flushIndex_lt {a : Nat} (ha : a < 488) : flushIndex a < 500 := by
  unfold flushIndex fbColumn fbPage
  split <;> omega

/-- In a page of FLUSH, items 2 to 62 send the columns of chip 2 (R140). -/
theorem flushPageItem_left {c : Nat} (hc : c ≤ 60) (r : Nat) :
    flushPageItem r (2 + c) = ⟨true, Mask.chip2, .fb (fbAddress r c)⟩ := by
  rw [flushPageItem, if_neg (by omega), if_neg (by omega), if_pos (by omega), Nat.add_sub_cancel_left, fbAddress]

/-- In a page of FLUSH, items 64 to 124 send the columns of chip 1 (R140). -/
theorem flushPageItem_right {c : Nat} (hc : 61 ≤ c) (r : Nat) :
    flushPageItem r (64 + (c - 61)) = ⟨true, Mask.chip1, .fb (fbAddress r c)⟩ := by
  rw [flushPageItem, if_neg (by omega), if_neg (by omega), if_neg (by omega), if_neg (by omega),
    Nat.add_sub_cancel_left, fbAddress, Nat.add_assoc, Nat.add_sub_cancel' hc]

theorem flushItem_of_page (r : Nat) {k : Nat} (hk : k < 125) : flushItem (125 * r + k) = flushPageItem r k := by
  rw [flushItem, Nat.mul_add_div (by decide), Nat.mul_add_mod, Nat.div_eq_of_lt hk, Nat.mod_eq_of_lt hk, Nat.add_zero]

/-- Every byte that a FLUSH reads exists (R50, R140). -/
theorem flush_reads_lt {i a : Nat} (hi : i < 500) {v : Byte} {m : Mask} (h : (item 5 v m i).src = .fb a) : a < 488 := by
  have hitem : item 5 v m i = flushPageItem (i / 125) (i % 125) := if_pos hi
  rw [hitem, flushPageItem] at h
  split_ifs at h
  · cases h
    omega
  · cases h
    omega

/-- R145: item `i(a)` of FLUSH sends framebuffer byte `a` as data to the chip of its column. -/
theorem item_flushIndex {a : Nat} (ha : a < 488) (v : Byte) (m : Mask) :
    item 5 v m (flushIndex a) = ⟨true, (columnChip (fbColumn a)).mask, .fb a⟩ := by
  have hcol : fbColumn a < 122 := Nat.mod_lt a (by decide)
  have hitem : item 5 v m (flushIndex a) = flushItem (flushIndex a) := if_pos (flushIndex_lt ha)
  rw [hitem, flushIndex, columnChip]
  split
  · next hle =>
    rw [Nat.add_assoc, flushItem_of_page _ (by omega), flushPageItem_left hle, fbAddress_page_column, ChipId.mask]
  · next hgt =>
    rw [Nat.add_assoc, flushItem_of_page _ (by omega), flushPageItem_right (by omega), fbAddress_page_column,
      ChipId.mask]

end Sys2Proof.Machine
end

section
/-! The framebuffer port: what each action does to its three registers, and what a framebuffer byte reads after a cycle
(R55, R57, R160, R161). -/

namespace Sys2Proof.Machine

open Sys2Proof

theorem fbInRange_of_le {a : BitVec 9} (h : a.toNat ≤ 487) : fbInRange a = true := decide_eq_true h

theorem fbInRange_of_ge {a : BitVec 9} (h : 488 ≤ a.toNat) : fbInRange a = false := decide_eq_false (by omega)

/-! ### One action -/

theorem exec_fbw_of_le {a : BitVec 9} (h : a.toNat ≤ 487) (b : Byte) (s : State) :
    exec (.fbw a b) s = .next (s.writeFb a.toNat b) := by
  rw [exec, execFbw, if_pos (fbInRange_of_le h)]

theorem exec_fbw_of_ge {a : BitVec 9} (h : 488 ≤ a.toNat) (b : Byte) (s : State) :
    exec (.fbw a b) s = .next s.raiseErrAddr := by
  rw [exec, execFbw, fbInRange_of_ge h, if_neg Bool.false_ne_true]

theorem exec_fbr_of_le {a : BitVec 9} (h : a.toNat ≤ 487) (b : Byte) (s : State) :
    exec (.fbr a b) s = .next { s with fbRdata := s.readFb a.toNat } := by
  rw [exec, execFbr, if_pos (fbInRange_of_le h)]

theorem exec_fbr_of_ge {a : BitVec 9} (h : 488 ≤ a.toNat) (b : Byte) (s : State) :
    exec (.fbr a b) s = .next { s.raiseErrAddr with fbRdata := 0x00 } := by
  rw [exec, execFbr, fbInRange_of_ge h, if_neg Bool.false_ne_true]

/-- Settles O32: in range the action is `writeFb`, whose reads are `readFb_writeFb`; out of range it is the flag. -/
theorem fbwWritesExactlyOneByte : Obligations.FbwWritesExactlyOneByte := by
  intro s a b
  refine ⟨fun hle => ⟨_, exec_fbw_of_le hle b s, rfl, ?_, fun x hx => ?_⟩, fun hge => exec_fbw_of_ge hge b s⟩
  · rw [readFb_writeFb, if_pos rfl]
  · rw [readFb_writeFb, if_neg hx]

/-- Settles O33: one equation in range and one out of range. -/
theorem fbrReadsOneByte : Obligations.FbrReadsOneByte :=
  fun s _ b => ⟨fun hle => exec_fbr_of_le hle b s, fun hge => exec_fbr_of_ge hge b s⟩

/-! ### One cycle -/

/-- What a framebuffer byte reads once the framebuffer is that of a cycle's action: the byte written, if the action is
an `FBW` to it, and else what it read before (R55, R160). -/
theorem readFb_of_fbAfter {s t : State} {inp : Inputs} (h : t.fb = s.fbAfter inp) (a : Nat) :
    t.readFb a =
      if inp.fbEn = true ∧ inp.fbWe = true ∧ inp.fbAddr.toNat = a ∧ a ≤ 487 then inp.fbWdata else s.readFb a := by
  by_cases hw : inp.fbEn = true ∧ inp.fbWe = true ∧ inp.fbAddr.toNat ≤ 487
  · obtain ⟨hen, hwe, hle⟩ := hw
    have hfb : t.fb = (s.writeFb inp.fbAddr.toNat inp.fbWdata).fb := by
      rw [h, State.fbAfter, hen, hwe, fbInRange_of_le hle]
      rfl
    rw [readFb_congr hfb, readFb_writeFb]
    exact if_congr ⟨fun heq => ⟨hen, hwe, heq.symm, heq ▸ hle⟩, fun ⟨_, _, heq, _⟩ => heq.symm⟩ rfl rfl
  · have hfb : t.fb = s.fb := by
      rw [h, State.fbAfter, if_neg]
      simpa [fbInRange, and_assoc] using hw
    rw [if_neg fun ⟨hen, hwe, heq, hle⟩ => hw ⟨hen, hwe, heq ▸ hle⟩, readFb_congr hfb]

/-- Settles O35: a reset leaves the framebuffer alone, and any other cycle leaves it as its action does. -/
theorem framebufferBytesChangeOnlyByFbw : Obligations.FramebufferBytesChangeOnlyByFbw := by
  intro s t a hstep
  rw [step_eq, Host.Outcome.next.injEq] at hstep
  subst hstep
  cases s.inputs.rst
  · simpa using readFb_of_fbAfter (t := s.cycleNext Config.nSettle) rfl a
  · rfl

/-- At the end of `S6`, with an item to come, the next `S1` has the item's byte on the bus, as the framebuffer holds it
before this cycle's action (R57, R109). -/
theorem cycleNext_enters {s : State} (hst : s.st = .s6) (hcnt : s.cnt = 1) (hmore : s.idx.toNat + 1 < itemCount s.cop)
    (n : Nat) :
    (s.cycleNext n).st = .s1 ∧
      (s.cycleNext n).dOut = s.sourceByte (item s.cop s.cval s.cmsk (s.idx.toNat + 1)).src := by
  have hseq : s.seqNext n s.inputs = s.nextItem := by
    rw [seqNext_busy (by simp [hst]), State.seqBusy, hst]
    exact seqS6_last n hcnt
  rw [State.cycleNext, hseq, nextItem_more hmore]
  exact ⟨rfl, rfl⟩

/-- Settles O36: the sequencer's half of the cycle reads the old framebuffer (`cycleNext_enters`), and the port's half
leaves the new one (`readFb_of_fbAfter`). -/
theorem flushReadsTheOldByteAtTheSameEdge : Obligations.FlushReadsTheOldByteAtTheSameEdge := by
  intro s a hrst hst hcnt hcop hidx hsrc hen hwe haddr
  have hmore : s.idx.toNat + 1 < itemCount s.cop := by rw [hcop]; exact hidx
  obtain ⟨hs1, hd⟩ := cycleNext_enters hst hcnt hmore Config.nSettle
  rw [hcop, hsrc] at hd
  have hle : a.toNat ≤ 487 := Nat.lt_succ_iff.1 (flush_reads_lt hidx hsrc)
  refine ⟨_, step_run hrst, hs1, hd, ?_⟩
  rw [readFb_of_fbAfter (s := s) (inp := s.inputs) rfl, if_pos ⟨hen, hwe, by rw [haddr], hle⟩]

end Sys2Proof.Machine
end

section
/-! The latch trace over a run: it only grows, so what an item of an operation latches is in the trace ever after. -/

namespace Sys2Proof.Machine

open Sys2Proof

/-- The chips selected by the mask latch the byte (R111). -/
theorem mem_eventsOf {j : ChipId} {m : Mask} (h : maskHas j m = true) (t : Nat) (dc : Bool) (b : Byte) :
    ⟨t, j, dc, b⟩ ∈ eventsOf t m dc b := by
  cases j with
  | one => exact List.mem_append_left _ (by rw [show maskChip1 m = true from h]; exact List.mem_singleton.2 rfl)
  | two => exact List.mem_append_right _ (by rw [show maskChip2 m = true from h]; exact List.mem_singleton.2 rfl)

/-- Acceptance latches nothing (R103). -/
theorem requestNext_trace (w : BitVec 13) (s : State) : (s.requestNext w).trace = s.trace := by
  unfold State.requestNext
  split <;> rfl

/-- `S2`'s edge emits the latch events of its cycle, and no other edge emits any (R105, R111). -/
theorem seqNext_trace (n : Nat) (inp : Inputs) (s : State) :
    (s.seqNext n inp).trace = if s.st = .s2 then s.trace ++ s.latchEvents else s.trace := by
  cases hst : s.st with
  | idle =>
    cases hv : inp.reqValid
    · rw [seqNext_quiet hst hv, if_neg (by decide)]
    · rw [seqNext_request hst hv, requestNext_trace, if_neg (by decide)]
  | s4 =>
    rw [seqNext_busy (by simp [hst]), State.seqBusy, hst, if_neg (by decide)]
    simp only [State.seqS4]
    split <;> rfl
  | s6 =>
    rw [seqNext_busy (by simp [hst]), State.seqBusy, hst, if_neg (by decide)]
    simp only [State.seqS6, State.nextItem]
    split
    · split <;> rfl
    · rfl
  | _ =>
    rw [seqNext_busy (by simp [hst]), State.seqBusy, hst]
    rfl

/-- No step takes an event back, a reset included (R111). -/
theorem step_trace_prefix {s t : State} (h : step s = .next t) : s.trace <+: t.trace := by
  rw [step_eq, Host.Outcome.next.injEq] at h
  subst h
  split
  · exact List.prefix_rfl
  · show s.trace <+: (s.seqNext Config.nSettle s.inputs).trace
    rw [seqNext_trace]
    split
    · exact List.prefix_append _ _
    · exact List.prefix_rfl

theorem runFor_trace_prefix {k : Nat} {s t : State} (h : runFor k s = .next t) : s.trace <+: t.trace := by
  induction k generalizing s with
  | zero =>
    obtain rfl : s = t := Host.Outcome.next.inj h
    exact List.prefix_rfl
  | succ k ih =>
    have hstep := step_eq s
    rw [runFor_succ k hstep] at h
    exact (step_trace_prefix hstep).trans (ih h)

/-- Whatever the host writes meanwhile, item `i` of an operation is latched with the byte its source reads in the cycle
whose end enters the item, and the events are in the trace when the operation ends (R102, R113). -/
theorem operation_latches_item {s : State} {op : BitVec 3} {m : Mask} {v : Byte} {rest : List HostLine}
    (h : s.st = .idle) (ho : s.Offers (requestWord op m v) rest) (hop : op.toNat ≤ 5) {i : Nat}
    (hi : i < itemCount op) :
    ∃ u t, runFor (i * Config.lItem) s = .next u ∧ runFor (1 + itemCount op * Config.lItem) s = .next t ∧
      eventsOf (s.cycle + i * Config.lItem + 2) (item op v m i).mask (item op v m i).dc
        (u.sourceByte (item op v m i).src) ⊆ t.trace := by
  obtain ⟨a, A⟩ := at_item h ho hop i hi
  obtain ⟨u, hu, hbyte⟩ := A.byte
  obtain ⟨b, hrun, D⟩ := run_item A.noReset A.st
  obtain ⟨n, hn⟩ : ∃ n, itemCount op = n + 1 := ⟨itemCount op - 1, by omega⟩
  obtain ⟨-, t, -, -, -, -, -, -, hend⟩ := operation_done h ho hop hn
  rw [← hn] at hend
  have hb : runFor (1 + (i + 1) * Config.lItem) s = .next b := by
    rw [Nat.succ_mul, ← Nat.add_assoc, runFor_add _ _ A.run, hrun.run]
  have hrest : runFor ((itemCount op - (i + 1)) * Config.lItem) b = .next t := by
    rw [← hend, ← runFor_add _ _ hb, Nat.add_assoc, ← Nat.add_mul, Nat.add_sub_cancel' hi]
  have htime : a.cycle + 1 = s.cycle + i * Config.lItem + 2 := by rw [A.cycle]; omega
  refine ⟨u, t, hu, hend, fun e he => (runFor_trace_prefix hrest).subset ?_⟩
  rw [D.trace, A.item, hbyte, htime]
  exact List.mem_append_right _ he

/-- Settles O55: byte `a` is what item `i(a)` sends, and the chip of its column is the one selected. -/
theorem flushSendsEachByteAsOfItsReadEdge : Obligations.FlushSendsEachByteAsOfItsReadEdge := by
  intro s m v rest a hi ho ha
  have hcount : itemCount 5 = 500 := rfl
  have hlt : flushIndex a < itemCount 5 := hcount ▸ flushIndex_lt ha
  obtain ⟨u, t, hu, ht, hsent⟩ := operation_latches_item hi ho (by decide) hlt
  rw [hcount] at ht
  refine ⟨u, t, hu, ht, hsent ?_⟩
  rw [item_flushIndex ha]
  exact mem_eventsOf (maskHas_mask _) _ _ _

end Sys2Proof.Machine
end

section
/-! The encoder and the decoder undo each other (R70 to R76): an instruction's word decodes to the instruction, and
every word of a port is the word of what it decodes to. -/

namespace Sys2Proof.Laws

open Sys2Proof

/-- Settles O1: one round trip per row of the table. -/
theorem decodeOfEncodeIsIdentity : Obligations.DecodeOfEncodeIsIdentity := by
  intro i
  cases i with
  | wrcmd m v => exact RoundTrip.wrcmd m v
  | wrdata m v => exact RoundTrip.wrdata m v
  | selpage m v => exact RoundTrip.selpage m v
  | selcol m v => exact RoundTrip.selcol m v
  | init m v => exact RoundTrip.init m v
  | flush m v => exact RoundTrip.flush m v
  | rsv6 m v => exact RoundTrip.rsv6 m v
  | rsv7 m v => exact RoundTrip.rsv7 m v
  | fbw a b => exact RoundTrip.fbw a b
  | fbr a b => exact RoundTrip.fbr a b
  | fbnop we a b => exact RoundTrip.fbnop we a b
  | data d => exact RoundTrip.data d
  | pageSet p => exact RoundTrip.pageSet p
  | columnSet c => exact RoundTrip.columnSet c
  | swReset => exact RoundTrip.swReset
  | displayOn => exact RoundTrip.displayOn
  | startLine => exact RoundTrip.startLine
  | otherCmd d => exact RoundTrip.otherCmd d

/-- The instruction stands for the word: it is well formed, and this is its word. -/
def StandsFor (i : Instr) (w : PortWord) : Prop := i.wf = true ∧ encode i = w

theorem standsFor_request (w : BitVec 13) : StandsFor (decode (.request w)) (.request w) := by
  rw [← requestWord_fields w, decode_request]
  rcases opcode_cases (requestOp w) with h | h | h | h | h | h | h | h <;> rw [h] <;> exact ⟨rfl, rfl⟩

theorem standsFor_action (w : BitVec 19) : StandsFor (decode (.action w)) (.action w) := by
  rw [← actionWordOf_fields w, decode_action]
  cases actionEn w
  · exact ⟨rfl, rfl⟩
  · cases actionWe w <;> exact ⟨rfl, rfl⟩

/-- A page select byte is its fixed bits before its page (R174). -/
theorem page_byte_of_bits {d : Byte} (h : d.extractLsb' 2 6 = 0b101110#6) : 0b101110#6 ++ d.extractLsb' 0 2 = d := by
  rw [← h]
  exact (BitVec.extractLsb'_append_extractLsb'_eq_extractLsb' rfl).trans BitVec.extractLsb'_eq_self

/-- A column select byte is a zero before its column (R175). -/
theorem column_byte_of_bit {d : Byte} (h : d.getLsbD 7 = false) : 0b0#1 ++ d.extractLsb' 0 7 = d := by
  have htop : d.extractLsb' 7 1 = 0b0#1 := by
    apply BitVec.eq_of_toNat_eq
    have hbit := toNat_getLsbD d 7
    rw [h] at hbit
    rw [BitVec.extractLsb'_toNat, Nat.shiftRight_eq_div_pow]
    exact hbit.symm
  rw [← htop]
  exact (BitVec.extractLsb'_append_extractLsb'_eq_extractLsb' rfl).trans BitVec.extractLsb'_eq_self

/-- A command byte is read in the row that sends it, along the tests of `decodeCommand` (R174 to R179). -/
theorem standsFor_command (d : Byte) : StandsFor (decodeCommand d) (.wire (wireWordOf false d)) := by
  unfold decodeCommand
  split_ifs with hpage hcol hreset hon hstart
  · exact ⟨rfl, by rw [encode, page_byte_of_bits hpage]⟩
  · exact ⟨rfl, by rw [encode, column_byte_of_bit hcol]⟩
  · exact ⟨rfl, by rw [hreset]; rfl⟩
  · exact ⟨rfl, by rw [hon]; rfl⟩
  · exact ⟨rfl, by rw [hstart]; rfl⟩
  · exact ⟨by simp [Instr.wf, isOtherCommand, namedCommand, *], rfl⟩

theorem standsFor_wire (w : BitVec 9) : StandsFor (decode (.wire w)) (.wire w) := by
  rw [← wireWordOf_fields w, decode_wire]
  cases wireDc w
  · exact standsFor_command _
  · exact ⟨rfl, rfl⟩

/-- Settles O2: one lemma per port. -/
theorem encodeOfDecodeIsIdentity : Obligations.EncodeOfDecodeIsIdentity := by
  intro w
  cases w with
  | request w => exact standsFor_request w
  | action w => exact standsFor_action w
  | wire w => exact standsFor_wire w

end Sys2Proof.Laws
end

section
/-! The rows of the request words and of the wire words as ranges of numbers (R71, R73, R75, R76, R174 to R179). -/

namespace Sys2Proof.Machine

open Sys2Proof

/-! ### Requests -/

/-- A field of a word, as a number (R70, R75). -/
theorem extractLsb'_eq_ofNat {n : Nat} (w : BitVec n) (i k : Nat) :
    w.extractLsb' i k = BitVec.ofNat k (w.toNat / 2 ^ i) := by
  rw [BitVec.extractLsb', Nat.shiftRight_eq_div_pow]

theorem requestMask_eq_ofNat (w : BitVec 13) : requestMask w = BitVec.ofNat 2 (w.toNat / 256) :=
  extractLsb'_eq_ofNat w 8 2

theorem requestValue_eq_ofNat (w : BitVec 13) : requestValue w = BitVec.ofNat 8 w.toNat := by
  rw [requestValue, extractLsb'_eq_ofNat, Nat.pow_zero, Nat.div_one]

/-- A request's opcode is below `k` exactly when its word is below `1024 k` (R70). -/
theorem lt_iff_requestOp_lt (w : BitVec 13) (k : Nat) : w.toNat < 1024 * k ↔ (requestOp w).toNat < k := by
  rw [toNat_requestOp]
  omega

/-- The row of a request by ranges of its opcode (R71). -/
theorem decode_request_ranges (w : BitVec 13) :
    decode (.request w) =
      if (requestOp w).toNat < 1 then .wrcmd (requestMask w) (requestValue w)
      else if (requestOp w).toNat < 2 then .wrdata (requestMask w) (requestValue w)
      else if (requestOp w).toNat < 3 then .selpage (requestMask w) (requestValue w)
      else if (requestOp w).toNat < 4 then .selcol (requestMask w) (requestValue w)
      else if (requestOp w).toNat < 5 then .init (requestMask w) (requestValue w)
      else if (requestOp w).toNat < 6 then .flush (requestMask w) (requestValue w)
      else if (requestOp w).toNat < 7 then .rsv6 (requestMask w) (requestValue w)
      else .rsv7 (requestMask w) (requestValue w) := by
  rw [decode, decodeRequest]
  rcases opcode_cases (requestOp w) with h | h | h | h | h | h | h | h <;> rw [h] <;> rfl

/-- A request changes nothing outside `IDLE` and is accepted in it, so it always answers (R30, R103). -/
theorem exec_request_answers (w : BitVec 13) (s : State) : ∃ t, exec (decode (.request w)) s = .next t := by
  by_cases hi : s.st = .idle
  · exact ⟨_, exec_request hi w⟩
  · refine ⟨s, requestsWaitOutsideIdle s (requestMask w) (requestValue w) hi _ ?_⟩
    rw [decode_request_ranges]
    split_ifs <;> simp only [List.mem_cons, true_or, or_true]

/-- Settles O3: the ranges of the opcode are those of the word, and mask and value are its lower bits. -/
theorem requestRowIsGivenByOpAlone : Obligations.RequestRowIsGivenByOpAlone := by
  refine fun w => ⟨?_, exec_request_answers w⟩
  simp only [decode_request_ranges, ← lt_iff_requestOp_lt, requestMask_eq_ofNat, requestValue_eq_ofNat, Nat.reduceMul]

/-! ### Wire words -/

/-- The bits of a page select are those of the bytes `0xB8` to `0xBB` (R174). -/
theorem page_bits_iff (d : Byte) : d.extractLsb' 2 6 = 0b101110#6 ↔ 0xB8 ≤ d.toNat ∧ d.toNat ≤ 0xBB := by
  have hd := d.isLt
  rw [BitVec.toNat_eq, BitVec.extractLsb'_toNat, Nat.shiftRight_eq_div_pow, BitVec.toNat_ofNat]
  omega

/-- The bit of a column select is that of the bytes `0x00` to `0x7F` (R175). -/
theorem column_bit_iff (d : Byte) : d.getLsbD 7 = false ↔ d.toNat < 0x80 := by
  have hd := d.isLt
  rw [← Bool.toNat_eq_zero, toNat_getLsbD]
  omega

/-- The row of a command byte by its number; a byte is not both a page select and a column select, so the order of these
two tests does not matter (R174 to R179). -/
theorem decodeCommand_ranges (d : Byte) :
    decodeCommand d =
      if d.toNat < 0x80 then .columnSet (BitVec.ofNat 7 d.toNat)
      else if 0xB8 ≤ d.toNat ∧ d.toNat ≤ 0xBB then .pageSet (BitVec.ofNat 2 d.toNat)
      else if d.toNat = 0xE2 then .swReset
      else if d.toNat = 0xAF then .displayOn
      else if d.toNat = 0xC0 then .startLine
      else .otherCmd d := by
  have hreset : d = 0xE2#8 ↔ d.toNat = 0xE2 := BitVec.toNat_eq
  have hon : d = 0xAF#8 ↔ d.toNat = 0xAF := BitVec.toNat_eq
  have hstart : d = 0xC0#8 ↔ d.toNat = 0xC0 := BitVec.toNat_eq
  simp only [decodeCommand, page_bits_iff, column_bit_iff, hreset, hon, hstart]
  simp only [extractLsb'_eq_ofNat, Nat.pow_zero, Nat.div_one]
  by_cases hcol : d.toNat < 0x80
  · have hpage : ¬ (0xB8 ≤ d.toNat ∧ d.toNat ≤ 0xBB) := by omega
    rw [if_neg hpage, if_pos hcol, if_pos hcol]
  · rw [if_neg hcol, if_neg hcol]

/-- Settles O4: bit 8 splits the words at 0x100, and below that the word is its byte. -/
theorem wireRowsPartitionTheNineBitWords : Obligations.WireRowsPartitionTheNineBitWords := by
  intro w
  have hd : (wireByte w).toNat < 256 := (wireByte w).isLt
  have hw : w.toNat = 256 * (wireDc w).toNat + (wireByte w).toNat := by
    rw [← toNat_wireWordOf, wireWordOf_fields]
  have hbyte : wireByte w = BitVec.ofNat 8 w.toNat := by
    rw [wireByte, extractLsb'_eq_ofNat, Nat.pow_zero, Nat.div_one]
  show decodeWire w = _
  rw [← hbyte, decodeWire]
  cases hdc : wireDc w
  · have hlow : w.toNat = (wireByte w).toNat := by simpa [hdc] using hw
    have hcmd : ¬ 0x100 ≤ w.toNat := by omega
    rw [if_neg hcmd, hlow]
    exact decodeCommand_ranges _
  · have hdata : 0x100 ≤ w.toNat := by
      rw [hdc, Bool.toNat_true] at hw
      omega
    rw [if_pos hdata]
    rfl

end Sys2Proof.Machine
end

section
/-! The assembler (R79, R80): the word of a line as a number, and a program line by line. -/

namespace Sys2Proof.Machine

open Sys2Proof

theorem requestWord_eq_ofNat (op : BitVec 3) (m : Mask) (v : Byte) :
    requestWord op m v = BitVec.ofNat 13 (1024 * op.toNat + 256 * m.toNat + v.toNat) := by
  rw [← toNat_requestWord, BitVec.ofNat_toNat, BitVec.setWidth_eq]

theorem actionWordOf_eq_ofNat (en we : Bool) (a : BitVec 9) (b : Byte) :
    actionWordOf en we a b =
      BitVec.ofNat 19 (262144 * en.toNat + 131072 * we.toNat + 256 * a.toNat + b.toNat) := by
  rw [← toNat_actionWordOf, BitVec.ofNat_toNat, BitVec.setWidth_eq]

/-! ### One line -/

theorem assemble_wrcmd (b : Byte) (m : Mask) :
    AsmLine.assemble (.wrcmd b m) = some (.request (BitVec.ofNat 13 (256 * m.toNat + b.toNat))) := by
  rw [AsmLine.assemble, requestWord_eq_ofNat, BitVec.ofNat_eq_ofNat, BitVec.toNat_ofNat, Nat.zero_mod, Nat.mul_zero,
    Nat.zero_add]

theorem assemble_wrdata (b : Byte) (m : Mask) :
    AsmLine.assemble (.wrdata b m) = some (.request (BitVec.ofNat 13 (0x0400 + 256 * m.toNat + b.toNat))) := by
  rw [AsmLine.assemble, requestWord_eq_ofNat]
  rfl

theorem assemble_selpage (p : Nat) :
    AsmLine.assemble (.selpage p) = if p ≤ 3 then some (.request (BitVec.ofNat 13 (0x0800 + p))) else none := by
  refine ite_congr rfl (fun hp => ?_) fun _ => rfl
  rw [requestWord_eq_ofNat, BitVec.toNat_ofNat, Nat.mod_eq_of_lt (by omega)]
  rfl

theorem assemble_selcol (c : Nat) (m : Mask) :
    AsmLine.assemble (.selcol c m) =
      if c ≤ 127 then some (.request (BitVec.ofNat 13 (0x0C00 + 256 * m.toNat + c))) else none := by
  refine ite_congr rfl (fun hc => ?_) fun _ => rfl
  rw [requestWord_eq_ofNat, BitVec.toNat_ofNat _ 8, Nat.mod_eq_of_lt (by omega)]
  rfl

theorem assemble_fbw (a : Nat) (b : Byte) :
    AsmLine.assemble (.fbw a b) =
      if a ≤ 511 then some (.action (BitVec.ofNat 19 (0x60000 + 256 * a + b.toNat))) else none := by
  refine ite_congr rfl (fun ha => ?_) fun _ => rfl
  rw [actionWordOf_eq_ofNat, BitVec.toNat_ofNat, Nat.mod_eq_of_lt (by omega)]
  rfl

theorem assemble_fbr (a : Nat) :
    AsmLine.assemble (.fbr a) = if a ≤ 511 then some (.action (BitVec.ofNat 19 (0x40000 + 256 * a))) else none := by
  refine ite_congr rfl (fun ha => ?_) fun _ => rfl
  rw [actionWordOf_eq_ofNat, BitVec.toNat_ofNat _ 9, Nat.mod_eq_of_lt (by omega)]
  rfl

/-! ### Pseudo-instructions and programs -/

/-- `FBFILL b` is 488 lines, and line `a` of them writes `b` to address `a` (R80). -/
theorem fillLines_lines (b : Byte) :
    (fillLines b).length = 488 ∧ ∀ a < 488, (fillLines b)[a]? = some (.fbw a b) := by
  refine ⟨by rw [fillLines, List.length_map, List.length_range], fun a ha => ?_⟩
  rw [fillLines, List.getElem?_map, List.getElem?_range ha, Option.map_some]

theorem assembleAll_cons (line : AsmLine) (rest : List AsmLine) (out : List HostLine) :
    assembleAll (line :: rest) = some out ↔
      ∃ l ls, line.assemble = some l ∧ assembleAll rest = some ls ∧ l :: ls = out := by
  rw [assembleAll]
  cases line.assemble <;> cases assembleAll rest <;> simp

/-- A program assembles exactly when each of its lines does, in order (R79). -/
theorem assembleAll_iff (lines : List AsmLine) (out : List HostLine) :
    assembleAll lines = some out ↔ lines.map AsmLine.assemble = out.map some := by
  induction lines generalizing out with
  | nil => cases out <;> simp [assembleAll]
  | cons line rest ih =>
    rw [assembleAll_cons, List.map_cons]
    cases out with
    | nil => simp
    | cons l ls => simp [ih]

/-- Settles O59: the words line by line, the expansions, and `assembleAll_iff`. -/
theorem assemblerEncodesTheLines : Obligations.AssemblerEncodesTheLines :=
  ⟨fun b m => ⟨assemble_wrcmd b m, assemble_wrdata b m⟩, assemble_selpage, assemble_selcol, rfl, rfl,
    fun _ => rfl, assemble_fbw, assemble_fbr, rfl, rfl, fun _ => rfl, rfl, rfl, rfl, fillLines_lines, rfl,
    assembleAll_iff⟩

end Sys2Proof.Machine
end

section
/-! Page and column select as requests (R72, R103), the idle framebuffer port (R162), and the lines of a host program
(R81). -/

namespace Sys2Proof.Machine

open Sys2Proof

/-! ### Page and column select -/

/-- `0xB8` has its two lowest bits clear, so the page adds to it (R72). -/
theorem pageByte_eq_ofNat (v : Byte) : pageByte v = BitVec.ofNat 8 (0xB8 + v.toNat % 4) := by
  have hpage : v.toNat % 4 < 2 ^ 2 := Nat.mod_lt _ (by decide)
  have hsum : 0xB8 + v.toNat % 4 = 0xB8 ||| v.toNat % 4 := Nat.two_pow_add_eq_or_of_lt hpage 46
  have hand : v.toNat &&& 3 = v.toNat % 4 := Nat.and_two_pow_sub_one_eq_mod v.toNat 2
  rw [hsum, ← hand, BitVec.ofNat_or, BitVec.ofNat_and, BitVec.ofNat_toNat, BitVec.setWidth_eq, pageByte]

theorem columnByte_eq_ofNat (v : Byte) : columnByte v = BitVec.ofNat 8 (v.toNat % 128) := by
  have hand : v.toNat &&& 127 = v.toNat % 128 := Nat.and_two_pow_sub_one_eq_mod v.toNat 7
  rw [← hand, BitVec.ofNat_and, BitVec.ofNat_toNat, BitVec.setWidth_eq, columnByte]

/-- Settles O15: acceptance puts the source byte of item 0 on the bus, which is the page byte. -/
theorem selpageIsAccepted : Obligations.SelpageIsAccepted := by
  intro s m v hi
  rw [← pageByte_eq_ofNat]
  exact acceptOperation_idle hi 2 m v

/-- Settles O16: acceptance puts the source byte of item 0 on the bus, which is the column byte. -/
theorem selcolIsAccepted : Obligations.SelcolIsAccepted := by
  intro s m v hi
  rw [← columnByte_eq_ofNat]
  exact acceptOperation_idle hi 3 m v

/-! ### The idle framebuffer port -/

/-- Settles O34: the meaning of the idle port is the state itself. -/
theorem fbnopChangesNothing : Obligations.FbnopChangesNothing := fun s we a b => by
  rw [exec, execFbnop]

/-! ### Host lines -/

theorem inputs_cons {s : State} {line : HostLine} {rest : List HostLine} (h : s.host = line :: rest) :
    s.inputs = line.drive := by
  rw [State.inputs, h]

/-- The host's program after a step, a reset included, is `hostAfter` (R81). -/
theorem step_host (s : State) : ∃ t, step s = .next t ∧ t.host = s.hostAfter := by
  refine ⟨_, step_eq s, ?_⟩
  split <;> rfl

/-- A request line waits for `IDLE` (R81): it drives no reset, so `req_ready` is the state alone. -/
theorem hostAfter_request {s : State} {w : BitVec 13} {rest : List HostLine} (h : s.host = .request w :: rest) :
    s.hostAfter = if s.st = .idle then rest else s.host := by
  have hready : s.reqReady (Inputs.ofRequest w) = decide (s.st = .idle) := by
    rw [reqReady_eq, show (Inputs.ofRequest w).rst = false from rfl, Bool.not_false, Bool.and_true]
  rw [State.hostAfter, h]
  simp only [hready, decide_eq_true_eq]

/-- A `WAIT` line stays while the block is busy (R81). -/
theorem hostAfter_wait {s : State} {rest : List HostLine} (h : s.host = .wait :: rest) :
    s.hostAfter = if s.st = .idle then rest else s.host := by
  rw [State.hostAfter, h]
  simp only [busy_eq, decide_eq_true_eq, ite_not]

/-- An action line drives its own word (R74, R81). -/
theorem actionWord_ofAction (w : BitVec 19) : (Inputs.ofAction w).actionWord = w := actionWordOf_fields w

/-- Settles O58: what each line drives is `HostLine.drive`, and what is left of the program is `hostAfter`. -/
theorem hostLinesLastAsTheRuleSays : Obligations.HostLinesLastAsTheRuleSays := by
  intro s rest
  obtain ⟨t, hstep, hhost⟩ := step_host s
  refine ⟨t, hstep, fun h => ?_, fun w h => ?_, fun w h => ?_, fun h => ?_, fun h => ?_, fun n h => ?_,
    fun inp h => ?_⟩
  · simp [hhost, State.hostAfter, State.inputs, h, Inputs.quiet]
  · exact ⟨inputs_cons h, hhost.trans (hostAfter_request h)⟩
  · rw [inputs_cons h]
    exact ⟨actionWord_ofAction w, rfl, rfl, by rw [hhost, State.hostAfter, h]⟩
  · exact ⟨inputs_cons h, hhost.trans (hostAfter_wait h)⟩
  · exact ⟨inputs_cons h, by rw [hhost, State.hostAfter, h]⟩
  · exact ⟨inputs_cons h, by rw [hhost, State.hostAfter, h]⟩
  · exact ⟨inputs_cons h, by rw [hhost, State.hostAfter, h]⟩

end Sys2Proof.Machine
end

section
/-! The sequencer's edge in each of its states, one equation per state (R103 to R109), and the statements about one
step that read it off. -/

namespace Sys2Proof.Machine

open Sys2Proof

/-! ### One equation per state -/

/-- The edge of `S1` (R104). -/
theorem seqNext_s1 {s : State} (h : s.st = .s1) (n : Nat) (inp : Inputs) : s.seqNext n inp = s.seqS1 := by
  rw [seqNext_busy (by simp [h]), State.seqBusy, h]

/-- The edge of `S2` (R105). -/
theorem seqNext_s2 {s : State} (h : s.st = .s2) (n : Nat) (inp : Inputs) : s.seqNext n inp = s.seqS2 := by
  rw [seqNext_busy (by simp [h]), State.seqBusy, h]

/-- The edge of `S3` (R106). -/
theorem seqNext_s3 {s : State} (h : s.st = .s3) (n : Nat) (inp : Inputs) : s.seqNext n inp = s.seqS3 n := by
  rw [seqNext_busy (by simp [h]), State.seqBusy, h]

/-- The edge of `S4`, which counts down and in its last cycle drops the strobe (R107). -/
theorem seqNext_s4 {s : State} (h : s.st = .s4) (hpos : 1 ≤ s.cnt) (n : Nat) (inp : Inputs) :
    s.seqNext n inp =
      { s with
        cnt := s.cnt - 1
        wrOut := if s.cnt = 1 then false else s.wrOut
        st := if s.cnt = 1 then .s5 else .s4 } := by
  rw [seqNext_busy (by simp [h]), State.seqBusy, h]
  by_cases hlast : s.cnt = 1
  · simp only [seqS4_last n hlast, hlast, if_true, Nat.sub_self]
  · simp only [seqS4_more n hlast, if_neg hlast, countDown_of_pos (Nat.ne_of_gt hpos), ← h]

/-- The edge of `S5` (R108). -/
theorem seqNext_s5 {s : State} (h : s.st = .s5) (n : Nat) (inp : Inputs) : s.seqNext n inp = s.seqS5 n := by
  rw [seqNext_busy (by simp [h]), State.seqBusy, h]

/-- The edge of `S6` (R109). -/
theorem seqNext_s6 {s : State} (h : s.st = .s6) (n : Nat) (inp : Inputs) : s.seqNext n inp = s.seqS6 n := by
  rw [seqNext_busy (by simp [h]), State.seqBusy, h]

/-! ### From the sequencer's edge to the step -/

/-- A step without reset is the sequencer's edge, with the chips, the framebuffer port, the host and the clock going on
by themselves (R100). -/
theorem step_of_seqNext {s s' : State} (hrst : s.inputs.rst = false)
    (hseq : s.seqNext Config.nSettle s.inputs = s') :
    ∃ t, step s = .next t ∧
      t = { s' with
            chip1 := t.chip1, chip2 := t.chip2
            fb := t.fb, fbRdata := t.fbRdata, errAddr := t.errAddr, host := t.host, cycle := s.cycle + 1 } := by
  subst hseq
  exact ⟨_, step_run hrst, rfl⟩

/-- Outside `S2` the chips stay as well (R172). -/
theorem step_of_seqNext_ne_s2 {s s' : State} (hrst : s.inputs.rst = false) (h2 : s.st ≠ .s2)
    (hseq : s.seqNext Config.nSettle s.inputs = s') :
    ∃ t, step s = .next t ∧
      t = { s' with
            fb := t.fb, fbRdata := t.fbRdata, errAddr := t.errAddr, host := t.host, cycle := s.cycle + 1 } := by
  subst hseq
  exact ⟨_, step_run hrst, cycleNext_of_ne_s2 h2 _⟩

/-- Settles O22: the edge is `seqS1`, which reads the levels from the item in progress. -/
theorem s1DrivesTheControlLines : Obligations.S1DrivesTheControlLines := fun _ hst hrst =>
  step_of_seqNext_ne_s2 hrst (by simp [hst]) (seqNext_s1 hst _ _)

/-- Settles O24: the edges are `seqS3` and `seqS5`. -/
theorem settleCounterIsLoaded : Obligations.SettleCounterIsLoaded := fun _ hrst =>
  ⟨fun hst => step_of_seqNext_ne_s2 hrst (by simp [hst]) (seqNext_s3 hst _ _),
    fun hst => step_of_seqNext_ne_s2 hrst (by simp [hst]) (seqNext_s5 hst _ _)⟩

/-- Settles O25: the edge is `seqNext_s4`. -/
theorem s4CountsDownThenDropsTheStrobe : Obligations.S4CountsDownThenDropsTheStrobe := fun _ hst hrst hpos =>
  step_of_seqNext_ne_s2 hrst (by simp [hst]) (seqNext_s4 hst hpos _ _)

/-! ### The strobe -/

theorem latchEvents_eq (s : State) :
    s.latchEvents = (if s.cs1n = false then [⟨s.cycle, .one, s.dcOut, s.dOut⟩] else []) ++
      (if s.cs2n = false then [⟨s.cycle, .two, s.dcOut, s.dOut⟩] else []) := by
  unfold State.latchEvents
  cases s.cs1n <;> cases s.cs2n <;> rfl

/-- A low strobe stays low over every edge but that of `S2` (R78, R105). -/
theorem seqNext_wrOut_low {s : State} (h2 : s.st ≠ .s2) (hlow : s.wrOut = false) (n : Nat) (inp : Inputs) :
    (s.seqNext n inp).wrOut = false := by
  by_cases hi : s.st = .idle
  · cases hv : inp.reqValid
    · rw [seqNext_quiet hi hv, hlow]
    · rw [seqNext_request hi hv, State.requestNext]
      split <;> exact hlow
  · rw [seqNext_busy hi, State.seqBusy]
    cases hst : s.st with
    | s1 => rfl
    | s2 => exact absurd hst h2
    | s4 =>
      simp only [State.seqS4]
      split
      · rfl
      · exact hlow
    | s6 =>
      simp only [State.seqS6, State.nextItem]
      split
      · split <;> exact hlow
      · exact hlow
    | _ => exact hlow

/-- Settles O23: the edge is `seqS2`; a rise elsewhere is excluded by `seqNext_wrOut_low`, and a reset drives the strobe
low. -/
theorem s2RaisesTheStrobeAndLatches : Obligations.S2RaisesTheStrobeAndLatches := by
  refine ⟨fun s hst hrst => ?_, fun s t hstep hlow hhigh => ?_⟩
  · have hseq := seqNext_s2 hst Config.nSettle s.inputs
    rw [State.seqS2, latchEvents_eq] at hseq
    exact step_of_seqNext hrst hseq
  · by_contra h2
    rw [step_eq, Host.Outcome.next.injEq] at hstep
    subst hstep
    cases hrst : s.inputs.rst
    · have hstay : (s.cycleNext Config.nSettle).wrOut = false := seqNext_wrOut_low h2 hlow _ _
      simp [hrst, hstay] at hhigh
    · simp [hrst] at hhigh

/-! ### The end of an item -/

/-- `Count` of the opcodes 0 to 5 (R141). -/
theorem itemCount_eq {op : BitVec 3} (h : op.toNat ≤ 5) :
    itemCount op = if op.toNat ≤ 3 then 1 else if op.toNat = 4 then 4 else 500 := by
  revert op
  decide

theorem add_one_eq_ofNat (i : BitVec 9) : i + 1 = BitVec.ofNat 9 (i.toNat + 1) := by
  rw [BitVec.ofNat_add, BitVec.ofNat_toNat, BitVec.setWidth_eq]
  rfl

/-- `S6` in one equation: it counts down, and in its last cycle enters the next item, if there is one (R109). -/
theorem seqS6_eq {s : State} (hst : s.st = .s6) (hpos : 1 ≤ s.cnt) (n : Nat) :
    s.seqS6 n =
      { s with
        cnt := s.cnt - 1
        idx := if s.cnt = 1 ∧ s.idx.toNat + 1 < itemCount s.cop then BitVec.ofNat 9 (s.idx.toNat + 1) else s.idx
        dOut := if s.cnt = 1 ∧ s.idx.toNat + 1 < itemCount s.cop then
            s.sourceByte (item s.cop s.cval s.cmsk (s.idx.toNat + 1)).src
          else s.dOut
        st := if s.cnt = 1 then (if s.idx.toNat + 1 < itemCount s.cop then .s1 else .idle) else .s6 } := by
  by_cases hlast : s.cnt = 1
  · rw [seqS6_last n hlast]
    by_cases hmore : s.idx.toNat + 1 < itemCount s.cop
    · simp only [nextItem_more hmore, hlast, hmore, and_self, if_true, add_one_eq_ofNat]
      rfl
    · simp only [nextItem_done hmore, hlast, hmore, and_false, if_false, if_true]
  · simp only [seqS6_more n hlast, countDown_of_pos (Nat.ne_of_gt hpos), hlast, false_and, if_false, ← hst]

/-- Settles O26: `seqS6_eq`, with `Count` written out. -/
theorem s6CountsDownThenGoesOn : Obligations.S6CountsDownThenGoesOn := by
  intro s hst hrst hpos hcop
  have hseq := (seqNext_s6 hst Config.nSettle s.inputs).trans (seqS6_eq hst hpos _)
  rw [itemCount_eq hcop] at hseq
  exact step_of_seqNext_ne_s2 hrst (by simp [hst]) hseq

end Sys2Proof.Machine
end

section
/-! Acceptance in `IDLE` (R103, R115, R116, R120, R142, R143), and what a step runs of the framebuffer port and of the
wire (R100, R162, R172). -/

namespace Sys2Proof.Machine

open Sys2Proof

/-! ### Acceptance -/

/-- Settles O14: acceptance puts the source byte of item 0 on the bus, which is the value. -/
theorem writeRequestsAreAccepted : Obligations.WriteRequestsAreAccepted := fun _ m v hi =>
  ⟨acceptOperation_idle hi 0 m v, acceptOperation_idle hi 1 m v⟩

/-- Settles O17: acceptance puts the source byte of item 0 on the bus, which depends on neither mask nor value. -/
theorem sequencesAreAccepted : Obligations.SequencesAreAccepted := fun _ m v hi =>
  ⟨acceptOperation_idle hi 4 m v, acceptOperation_idle hi 5 m v⟩

/-- An operation's request is stored and its item 0 entered (R103). -/
theorem requestNext_operation {w : BitVec 13} (h : w.toNat / 1024 ≤ 5) (s : State) :
    s.requestNext w = (s.storeRequest (requestOp w) (requestMask w) (requestValue w)).enterItem
      (requestOp w) (requestValue w) (requestMask w) 0 :=
  if_pos (by rwa [toNat_requestOp])

/-- A reserved request sets the flag (R103, R120). -/
theorem requestNext_reserved {w : BitVec 13} (h : ¬ w.toNat / 1024 ≤ 5) (s : State) :
    s.requestNext w = s.raiseErrOp :=
  if_neg (by rwa [toNat_requestOp])

/-- A cycle that only offers a request leaves the framebuffer port's registers alone (R81, R162). -/
theorem fbPort_ofRequest (s : State) (w : BitVec 13) :
    s.fbAfter (.ofRequest w) = s.fb ∧ s.fbRdataAfter (.ofRequest w) = s.fbRdata ∧
      s.errAddrAfter (.ofRequest w) = s.errAddr :=
  ⟨rfl, rfl, Bool.or_false _⟩

/-- Settles O18: acceptance is the flag, and a request line is quiet on the framebuffer port and consumed in `IDLE`. -/
theorem reservedOpcodesOnlyRaiseErrOp : Obligations.ReservedOpcodesOnlyRaiseErrOp := by
  refine fun s m v hi => ⟨acceptReserved_idle hi, acceptReserved_idle hi, fun op hop hhost => ?_⟩
  have hinp : s.inputs = .ofRequest (requestWord op m v) := inputs_cons hhost
  have hrow : ¬ (requestWord op m v).toNat / 1024 ≤ 5 := by rw [← toNat_requestOp, requestOp_word]; omega
  have hseq : s.seqNext Config.nSettle s.inputs = s.raiseErrOp := by
    rw [hinp, seqNext_request hi rfl]
    exact requestNext_reserved hrow s
  obtain ⟨hfb, hrdata, haddr⟩ := fbPort_ofRequest s (requestWord op m v)
  rw [step_run (by rw [hinp]; rfl), cycleNext_of_ne_s2 (by simp [hi]), hseq, hinp, hfb, hrdata, haddr,
    hostAfter_request hhost, if_pos hi]
  rfl

/-- Settles O20: the three cases are `seqNext_quiet`, `requestNext_operation` and `requestNext_reserved`. -/
theorem idleAcceptsExactlyAnOfferedRequest : Obligations.IdleAcceptsExactlyAnOfferedRequest := by
  intro s hi hrst w
  have hcycle := cycleNext_of_ne_s2 (s := s) (by simp [hi]) Config.nSettle
  refine ⟨_, step_run hrst, fun r rest hhost => (hostAfter_request hhost).trans (if_pos hi), ?_⟩
  split
  · next hquiet =>
    rw [seqNext_quiet hi hquiet] at hcycle
    exact hcycle
  · next hoffer =>
    rw [seqNext_request hi (by simpa using hoffer)] at hcycle
    split
    · next hop =>
      rw [requestNext_operation hop] at hcycle
      exact hcycle
    · next hop =>
      rw [requestNext_reserved hop] at hcycle
      exact hcycle

/-! ### The framebuffer action of a cycle -/

/-- Settles O7: `cycleNext` takes the three fields from the action, which `exec_action` computes. -/
theorem stepRunsTheFramebufferAction : Obligations.StepRunsTheFramebufferAction := by
  rintro s i hrst rfl -
  exact ⟨_, _, exec_action s.inputs s, step_run hrst, rfl, rfl, rfl⟩

/-- Acceptance does not read the host's program (R103). -/
theorem requestNext_unread (w : BitVec 13) (s : State) (lines : List HostLine) :
    State.requestNext w { s with host := lines } = { s.requestNext w with host := lines } := by
  unfold State.requestNext
  split <;> rfl

/-- Of a cycle's inputs and the host's program, the sequencer reads the request alone (R100, R103). -/
theorem seqNext_reads_request (n : Nat) {inp inp' : Inputs} (hv : inp'.reqValid = inp.reqValid)
    (hw : inp'.reqWord = inp.reqWord) (s : State) (lines : List HostLine) :
    State.seqNext n inp' { s with host := lines } = { s.seqNext n inp with host := lines } := by
  by_cases hi : s.st = .idle
  · have hi' : ({ s with host := lines } : State).st = .idle := hi
    cases hreq : inp.reqValid
    · rw [seqNext_quiet hi hreq, seqNext_quiet hi' (hv.trans hreq)]
    · rw [seqNext_request hi hreq, seqNext_request hi' (hv.trans hreq), hw, requestNext_unread]
  · obtain ⟨herrOp, herrAddr, -⟩ := seqBusy_passes hi n
    have hunread := seqBusy_unread n s s.errOp s.errAddr lines
    rw [seqNext_busy hi, seqNext_busy (s := { s with host := lines }) hi]
    refine hunread.trans ?_
    rw [← herrOp, ← herrAddr]

/-- Settles O31: a reset reads no input, and in any other cycle the sequencer and the chips do not see the action. -/
theorem framebufferActionsDoNotDisturbTheSequencer : Obligations.FramebufferActionsDoNotDisturbTheSequencer := by
  intro s lines s' hrst hv hw
  refine ⟨_, _, step_eq s, step_eq s', ?_⟩
  rw [hrst]
  split
  · rfl
  · rw [State.cycleNext, State.cycleNext, seqNext_reads_request _ hv hw]
    rfl

/-! ### The wire word at the strobe -/

/-- In `S2` with the strobe low, a chip latches the word on the pins if its select is low (R172). -/
theorem chipAfter_rising {s : State} (h2 : s.st = .s2) (hlow : s.wrOut = false) (selectN : Bool) (c : Chip) :
    s.chipAfter selectN c = if selectN then c else c.latch s.dcOut s.dOut := by
  have hrise : s.strobeRises = true := by simp [State.strobeRises, h2, hlow]
  rw [State.chipAfter, hrise]
  cases selectN <;> rfl

/-- Settles O8: `exec_wire` latches at each chip whose select is low, as `chipAfter` does at the rising strobe. -/
theorem stepRunsTheWireWordAtTheStrobe : Obligations.StepRunsTheWireWordAtTheStrobe := by
  rintro s i h2 hlow hrst rfl -
  have hseq := seqNext_s2 h2 Config.nSettle s.inputs
  refine ⟨_, _, exec_wire s.dcOut s.dOut s, step_run hrst, chipAfter_rising h2 hlow ..,
    chipAfter_rising h2 hlow .., ?_⟩
  simp only [State.cycleNext, hseq, seqS2_wrOut, seqS2_st, and_self]

end Sys2Proof.Machine
end

section
/-! The two history invariants: the chips are the replay of the latch trace (R111, R171, R172), and latch edges are
`L_ITEM` cycles apart (R112, R241). -/

namespace Sys2Proof.Machine

open Sys2Proof

/-! ### The chips as the replay of the trace -/

theorem replay_append (j : ChipId) (l l' : List LatchEvent) (c : Chip) :
    c.replay j (l ++ l') = (c.replay j l).replay j l' := List.foldl_append ..

/-- An event that a select line lets through or not, replayed at its own chip. -/
theorem replay_event (selectN : Bool) (t : Nat) (j : ChipId) (dc : Bool) (d : Byte) (c : Chip) :
    c.replay j (if selectN then [] else [⟨t, j, dc, d⟩]) = if selectN then c else c.latch dc d := by
  cases selectN
  · exact if_pos rfl
  · rfl

theorem replay_event_other (selectN : Bool) (t : Nat) {i j : ChipId} (h : i ≠ j) (dc : Bool) (d : Byte) (c : Chip) :
    c.replay j (if selectN then [] else [⟨t, i, dc, d⟩]) = c := by
  cases selectN
  · exact if_neg h
  · rfl

/-- Replaying the events of one edge is latching the word on the pins, at a chip whose select is low (R111, R172). -/
theorem replay_latchEvents (s : State) (j : ChipId) (c : Chip) :
    c.replay j s.latchEvents = if s.selectN j then c else c.latch s.dcOut s.dOut := by
  rw [State.latchEvents, replay_append]
  cases j
  · rw [replay_event_other (i := .two) _ _ (by decide), replay_event, State.selectN]
  · rw [replay_event, replay_event_other (i := .one) _ _ (by decide), State.selectN]

theorem chipsReplayTrace_iff {s : State} :
    s.ChipsReplayTrace ↔ ∀ j, s.chip j = Chip.unknown.replay j s.trace :=
  ⟨fun ⟨h₁, h₂⟩ j => match j with | .one => h₁ | .two => h₂, fun h => ⟨h .one, h .two⟩⟩

theorem cycleNext_chip (n : Nat) (s : State) (j : ChipId) :
    (s.cycleNext n).chip j = s.chipAfter (s.selectN j) (s.chip j) := by
  cases j <;> rfl

theorem cycleNext_trace (n : Nat) (s : State) :
    (s.cycleNext n).trace = if s.st = .s2 then s.trace ++ s.latchEvents else s.trace := seqNext_trace ..

/-- A cycle without reset does to a chip what the events it emits say (R172). -/
theorem cycleNext_chip_replay {s : State} (h : s.Inv) (n : Nat) (j : ChipId) :
    ∃ ev, (s.cycleNext n).trace = s.trace ++ ev ∧ (s.cycleNext n).chip j = (s.chip j).replay j ev := by
  rw [cycleNext_trace, cycleNext_chip]
  by_cases h2 : s.st = .s2
  · have hlow : s.wrOut = false := by rw [h.strobe, h2]; rfl
    exact ⟨_, if_pos h2, by rw [chipAfter_rising h2 hlow, replay_latchEvents]⟩
  · exact ⟨[], by rw [if_neg h2, List.append_nil], chipAfter_of_ne h2 _ _⟩

/-- Settles O48: a reset leaves chips and trace alone, and any other cycle is `cycleNext_chip_replay`. -/
theorem stepKeepsChipsEqualToTraceReplay : Obligations.StepKeepsChipsEqualToTraceReplay := by
  intro s t hinv hreplay hstep
  rw [step_eq, Host.Outcome.next.injEq] at hstep
  subst hstep
  split
  · exact hreplay
  · refine chipsReplayTrace_iff.2 fun j => ?_
    obtain ⟨ev, htrace, hchip⟩ := cycleNext_chip_replay hinv Config.nSettle j
    rw [htrace, hchip, replay_append, chipsReplayTrace_iff.1 hreplay j]

/-! ### The spacing of latch edges -/

/-- In `IDLE` the age stays what it was, whether a request is accepted or not (R103, R112). -/
theorem requestNext_sinceLatch {s : State} (hi : s.st = .idle) (w : BitVec 13) :
    (s.requestNext w).sinceLatch = s.sinceLatch := by
  unfold State.requestNext
  split
  · simp only [State.sinceLatch, hi, enterItem_st]
  · rfl

/-- The end of an item, whichever way it goes on, is as far from the last latch edge (R109, R112). -/
theorem nextItem_sinceLatch (s : State) : s.nextItem.sinceLatch = 2 * Config.nSettle + 3 := by
  unfold State.nextItem
  split <;> rfl

/-- Outside `S2` the age that the sequencer's state stands for grows by at most the cycle that passes (R112). -/
theorem seqNext_sinceLatch_le {s : State} (h : s.Inv) (h2 : s.st ≠ .s2) (inp : Inputs) :
    (s.seqNext Config.nSettle inp).sinceLatch ≤ s.sinceLatch + 1 := by
  have hsettling := h.cntSettling
  cases hst : s.st with
  | idle =>
    cases hv : inp.reqValid
    · rw [seqNext_quiet hst hv]
      exact Nat.le_succ _
    · rw [seqNext_request hst hv, requestNext_sinceLatch hst]
      exact Nat.le_succ _
  | s1 =>
    rw [seqNext_s1 hst]
    simp only [State.sinceLatch, hst, seqS1_st]
    omega
  | s2 => exact absurd hst h2
  | s3 =>
    rw [seqNext_s3 hst]
    simp only [State.sinceLatch, hst, seqS3_st, seqS3_cnt]
    omega
  | s4 =>
    obtain ⟨hpos, hle⟩ := hsettling (by simp [hst])
    rw [seqNext_s4 hst hpos]
    by_cases hlast : s.cnt = 1
    · simp only [State.sinceLatch, hst, if_pos hlast]
      omega
    · simp only [State.sinceLatch, hst, if_neg hlast]
      omega
  | s5 =>
    rw [seqNext_s5 hst]
    simp only [State.sinceLatch, hst, seqS5_st, seqS5_cnt]
    omega
  | s6 =>
    obtain ⟨hpos, hle⟩ := hsettling (by simp [hst])
    rw [seqNext_s6 hst]
    by_cases hlast : s.cnt = 1
    · rw [seqS6_last _ hlast, nextItem_sinceLatch]
      simp only [State.sinceLatch, hst]
      omega
    · rw [seqS6_more _ hlast, countDown_of_pos (by omega)]
      simp only [State.sinceLatch, hst]
      omega
  | unused7 => exact absurd hst h.stKnown

/-- The events of one edge carry the number of its cycle (R111). -/
theorem latchEvents_time {s : State} {e : LatchEvent} (he : e ∈ s.latchEvents) : e.time = s.cycle := by
  rw [latchEvents_eq, List.mem_append, List.mem_ite_nil_right, List.mem_ite_nil_right] at he
  rcases he with ⟨-, he⟩ | ⟨-, he⟩ <;> rw [List.mem_singleton.1 he]

/-- A cycle that emits no event: the events age with the clock (R112). -/
theorem latchesSpaced_cycleNext_of_ne_s2 {s : State} (hinv : s.Inv) (h2 : s.st ≠ .s2) (h : s.LatchesSpaced) :
    (s.cycleNext Config.nSettle).LatchesSpaced := by
  obtain ⟨hold, hspaced⟩ := h
  have htrace : (s.cycleNext Config.nSettle).trace = s.trace := (cycleNext_trace ..).trans (if_neg h2)
  have hage : (s.cycleNext Config.nSettle).sinceLatch ≤ s.sinceLatch + 1 := seqNext_sinceLatch_le hinv h2 _
  rw [State.LatchesSpaced, htrace]
  refine ⟨fun e he => ?_, hspaced⟩
  show e.time + _ ≤ s.cycle + 1
  have heold := hold e he
  omega

/-- The edge of `S2`: its events come `L_ITEM` or more cycles after all others (R241). -/
theorem latchesSpaced_cycleNext_of_s2 {s : State} (h2 : s.st = .s2) (h : s.LatchesSpaced) :
    (s.cycleNext Config.nSettle).LatchesSpaced := by
  obtain ⟨hold, hspaced⟩ := h
  have hgap : s.sinceLatch = Config.lItem := by
    simp only [State.sinceLatch, h2, lItem_eq, Nat.add_comm]
  have hbefore : ∀ e ∈ s.trace, e.time + Config.lItem ≤ s.cycle := hgap ▸ hold
  have htrace : (s.cycleNext Config.nSettle).trace = s.trace ++ s.latchEvents := (cycleNext_trace ..).trans (if_pos h2)
  have hage : (s.cycleNext Config.nSettle).sinceLatch = 1 := by
    have hst : (s.cycleNext Config.nSettle).st = .s3 := by rw [State.cycleNext, seqNext_s2 h2, seqS2_st]
    rw [State.sinceLatch, hst]
  rw [State.LatchesSpaced, htrace, hage]
  refine ⟨fun e he => ?_, List.pairwise_append.2 ⟨hspaced, ?_, fun e he f hf => .inr ?_⟩⟩
  · show e.time + 1 ≤ s.cycle + 1
    rcases List.mem_append.1 he with he | he
    · have hebefore := hbefore e he
      omega
    · exact (congrArg (· + 1) (latchEvents_time he)).le
  · exact List.pairwise_of_forall_mem_list fun e he f hf =>
      .inl ((latchEvents_time he).trans (latchEvents_time hf).symm)
  · rw [latchEvents_time hf]
    exact hbefore e he

/-- Settles O49: only the edge of `S2` adds events, and there all others are `L_ITEM` cycles old. -/
theorem stepKeepsLatchesSpaced : Obligations.StepKeepsLatchesSpaced := by
  intro s t hinv hspaced hrst hstep
  rw [step_run hrst, Host.Outcome.next.injEq] at hstep
  subst hstep
  by_cases h2 : s.st = .s2
  · exact latchesSpaced_cycleNext_of_s2 h2 hspaced
  · exact latchesSpaced_cycleNext_of_ne_s2 hinv h2 hspaced

end Sys2Proof.Machine
end

section
/-! A byte write cycle by cycle (R78, R101), and from it and the items in turn the timing of operations (R113) and what
the single-byte requests send (R115, R116, R130, R131). -/

namespace Sys2Proof.Machine

open Sys2Proof

/-! ### The cycles of a byte write -/

/-- The sequencer's state in cycle `j` of a byte write (R101). -/
def writeState (j : Nat) : SeqState :=
  if j = 0 then .s1 else if j = 1 then .s2 else if j = 2 then .s3 else if j < 3 + Config.nSettle then .s4
  else if j = 3 + Config.nSettle then .s5 else .s6

/-- The settle counter in cycle `j`, where that is one of a settle delay (R107, R109). -/
def writeCount (j : Nat) : Nat :=
  if j < 3 + Config.nSettle then 3 + Config.nSettle - j else 4 + 2 * Config.nSettle - j

/-- `u` is the state in cycle `j`, from the second on, of the byte write that begins in `s`. -/
structure WriteCycle (s u : State) (j : Nat) : Prop where
  run : runFor j s = .next u
  noReset : u.NoReset
  st : u.st = writeState j
  cnt : u.st.settling = true → u.cnt = writeCount j
  wrOut : u.wrOut = u.st.strobeHigh
  dOut : u.dOut = s.dOut
  dcOut : u.dcOut = s.item.dc
  cs1n : u.cs1n = !maskChip1 s.item.mask
  cs2n : u.cs2n = !maskChip2 s.item.mask

theorem writeState_s4 {j : Nat} (h : 3 ≤ j) (h' : j < 3 + Config.nSettle) : writeState j = .s4 := by
  rw [writeState, if_neg (by omega), if_neg (by omega), if_neg (by omega), if_pos h']

theorem writeState_s5 : writeState (3 + Config.nSettle) = .s5 := by
  have hpos := nSettle_pos
  rw [writeState, if_neg (by omega), if_neg (by omega), if_neg (by omega), if_neg (by omega), if_pos rfl]

theorem writeState_s6 {j : Nat} (h : 4 + Config.nSettle ≤ j) : writeState j = .s6 := by
  rw [writeState, if_neg (by omega), if_neg (by omega), if_neg (by omega), if_neg (by omega), if_neg (by omega)]

theorem writeCount_of_lt {j : Nat} (h : j < 3 + Config.nSettle) : writeCount j = 3 + Config.nSettle - j := if_pos h

theorem writeCount_of_ge {j : Nat} (h : 3 + Config.nSettle ≤ j) : writeCount j = 4 + 2 * Config.nSettle - j :=
  if_neg (Nat.not_lt.2 h)

/-- The strobe is high from the third cycle to the end of the first delay (R78). -/
theorem strobeHigh_writeState (j : Nat) :
    (writeState j).strobeHigh = decide (2 ≤ j ∧ j < 3 + Config.nSettle) := by
  have hpos := nSettle_pos
  rw [eq_comm, writeState]
  split_ifs
  · exact decide_eq_false (by omega)
  · exact decide_eq_false (by omega)
  · exact decide_eq_true (by omega)
  · exact decide_eq_true (by omega)
  · exact decide_eq_false (by omega)
  · exact decide_eq_false (by omega)

/-- The second cycle: `S2`, the control lines just driven (R104). -/
theorem writeCycle_one {s : State} (hr : s.NoReset) (hst : s.st = .s1) : ∃ u, WriteCycle s u 1 := by
  have hseq := seqNext_s1 hst Config.nSettle s.inputs
  have hst' : (s.cycleNext Config.nSettle).st = .s2 := congrArg State.st hseq
  refine ⟨_, ⟨runFor_one (step_run hr.rst), (kept_cycleNext _ (by simp [hst])).noReset hr, hst', ?_, ?_,
    congrArg (·.dOut) hseq, congrArg (·.dcOut) hseq, congrArg (·.cs1n) hseq, congrArg (·.cs2n) hseq⟩⟩
  · rw [hst']
    exact fun h => absurd h Bool.false_ne_true
  · rw [hst']
    exact congrArg State.wrOut hseq

/-- The third cycle: `S3`, the byte just latched (R105). -/
theorem writeCycle_two {s : State} (hr : s.NoReset) (hst : s.st = .s1) : ∃ u, WriteCycle s u 2 := by
  obtain ⟨u, hrun, hkept, hst', -, hwr, -, -, hd, hdc, hcs1, hcs2, -⟩ := run_latch hr hst
  refine ⟨u, ⟨hrun.run, hkept.noReset hr, hst', ?_, ?_, hd, hdc, hcs1, hcs2⟩⟩
  · rw [hst']
    exact fun h => absurd h Bool.false_ne_true
  · rw [hst', hwr]
    rfl

/-- From `S3` on, a cycle that moves the sequencer's state, counter and strobe as the write does is the next cycle of
the write: pins and host stay as they are. -/
theorem WriteCycle.move {s u : State} {j : Nat} (W : WriteCycle s u j) (hb : u.st ≠ .idle) (h2 : u.st ≠ .s2)
    {st : SeqState} {cnt : Nat} {wr : Bool}
    (hseq : u.seqNext Config.nSettle u.inputs = { u with st := st, cnt := cnt, wrOut := wr })
    (hst : st = writeState (j + 1)) (hcnt : st.settling = true → cnt = writeCount (j + 1))
    (hwr : wr = st.strobeHigh) : ∃ v, WriteCycle s v (j + 1) := by
  rw [seqNext_busy hb] at hseq
  obtain ⟨v, hrun, hstill, hvst, hvcnt, hvwr, -⟩ := still_cycle W.noReset hb h2 hseq
  refine ⟨v, ⟨?_, hstill.noReset W.noReset, hvst.trans hst, ?_, by rw [hvwr, hvst, hwr], hstill.dOut.trans W.dOut,
    hstill.dcOut.trans W.dcOut, hstill.cs1n.trans W.cs1n, hstill.cs2n.trans W.cs2n⟩⟩
  · rw [runFor_add j 1 W.run, hrun.run]
  · rw [hvst, hvcnt]
    exact hcnt

/-- From `S3` to the first delay (R106). -/
theorem WriteCycle.next_of_s3 {s u : State} (W : WriteCycle s u 2) : ∃ v, WriteCycle s v 3 := by
  have hpos := nSettle_pos
  have hst : u.st = .s3 := W.st
  refine W.move (by simp [hst]) (by simp [hst]) (seqNext_s3 hst _ _) (writeState_s4 le_rfl (by omega)).symm
    (fun _ => ?_) (by rw [W.wrOut, hst]; rfl)
  rw [writeCount_of_lt (by omega)]
  omega

/-- In the first delay, and from its last cycle to `S5` (R107). -/
theorem WriteCycle.next_of_s4 {s u : State} {j : Nat} (W : WriteCycle s u j) (h : 3 ≤ j)
    (h' : j < 3 + Config.nSettle) : ∃ v, WriteCycle s v (j + 1) := by
  have hst : u.st = .s4 := W.st.trans (writeState_s4 h h')
  have hcnt : u.cnt = 3 + Config.nSettle - j := (W.cnt (by rw [hst]; rfl)).trans (writeCount_of_lt h')
  refine W.move (by simp [hst]) (by simp [hst]) (seqNext_s4 hst (by omega) _ _) ?_ ?_ ?_
  · split
    · rw [show j + 1 = 3 + Config.nSettle by omega, writeState_s5]
    · rw [writeState_s4 (by omega) (by omega)]
  · split
    · exact fun h => absurd h Bool.false_ne_true
    · intro _
      rw [writeCount_of_lt (by omega)]
      omega
  · split
    · rfl
    · rw [W.wrOut, hst]

/-- From `S5` to the second delay (R108). -/
theorem WriteCycle.next_of_s5 {s u : State} (W : WriteCycle s u (3 + Config.nSettle)) :
    ∃ v, WriteCycle s v (3 + Config.nSettle + 1) := by
  have hst : u.st = .s5 := W.st.trans writeState_s5
  refine W.move (by simp [hst]) (by simp [hst]) (seqNext_s5 hst _ _) (writeState_s6 (by omega)).symm (fun _ => ?_)
    (by rw [W.wrOut, hst]; rfl)
  rw [writeCount_of_ge (by omega)]
  omega

/-- In the second delay, up to its last cycle (R109). -/
theorem WriteCycle.next_of_s6 {s u : State} {j : Nat} (W : WriteCycle s u j) (h : 4 + Config.nSettle ≤ j)
    (h' : j + 1 < 4 + 2 * Config.nSettle) : ∃ v, WriteCycle s v (j + 1) := by
  have hst : u.st = .s6 := W.st.trans (writeState_s6 h)
  have hcnt : u.cnt = 4 + 2 * Config.nSettle - j :=
    (W.cnt (by rw [hst]; rfl)).trans (writeCount_of_ge (by omega))
  have hseq := (seqNext_s6 hst Config.nSettle u.inputs).trans (seqS6_more _ (by omega))
  rw [countDown_of_pos (by omega)] at hseq
  refine W.move (by simp [hst]) (by simp [hst]) hseq (hst.trans (writeState_s6 (by omega)).symm) (fun _ => ?_) W.wrOut
  rw [writeCount_of_ge (by omega)]
  omega

/-- Every cycle of a byte write but the first (R101). -/
theorem writeCycle {s : State} (hr : s.NoReset) (hst : s.st = .s1) {j : Nat} (h1 : 1 ≤ j) :
    j < 4 + 2 * Config.nSettle → ∃ u, WriteCycle s u j := by
  induction j, h1 using Nat.le_induction with
  | base => exact fun _ => writeCycle_one hr hst
  | succ j h1 ih =>
    intro hj
    obtain rfl | h2 := h1.eq_or_lt
    · exact writeCycle_two hr hst
    obtain ⟨u, W⟩ := ih (by omega)
    obtain rfl | h3 := (Nat.succ_le_of_lt h2).eq_or_lt
    · exact W.next_of_s3
    rcases Nat.lt_trichotomy j (3 + Config.nSettle) with h4 | rfl | h6
    · exact W.next_of_s4 h3 h4
    · exact W.next_of_s5
    · exact W.next_of_s6 (by omega) hj

/-- Settles O50: the first cycle is `s` itself, the others are `writeCycle`, and the end is that of the item. -/
theorem byteWritePinTrace : Obligations.ByteWritePinTrace := by
  intro s hr hst hwr N it
  refine ⟨?_, fun j hj => ?_⟩
  · obtain ⟨t, hrun, D⟩ := run_item hr hst
    refine ⟨t, lItem_eq ▸ hrun.run, ?_⟩
    by_cases hmore : s.idx.toNat + 1 < itemCount s.cop
    · exact .inl (D.more hmore).1
    · exact .inr (D.done hmore).1
  · cases j with
    | zero => exact ⟨s, rfl, hst, rfl, rfl, rfl, rfl, by simp [hwr]⟩
    | succ j =>
      obtain ⟨u, W⟩ := writeCycle hr hst (Nat.succ_pos j) hj
      have hj0 : j + 1 ≠ 0 := Nat.succ_ne_zero j
      refine ⟨u, W.run, W.st, W.dOut, W.dcOut.trans (if_neg hj0).symm, W.cs1n.trans (if_neg hj0).symm,
        W.cs2n.trans (if_neg hj0).symm, ?_⟩
      rw [W.wrOut, W.st]
      exact strobeHigh_writeState _

/-! ### Whole operations -/

/-- From the second cycle of a byte write the strobe rises (R105). -/
theorem WriteCycle.strobe_rises {s u : State} (W : WriteCycle s u 1) :
    ∃ v, step u = .next v ∧ v.st = .s3 ∧ v.wrOut = true := by
  obtain ⟨v, hv, heq⟩ := s2RaisesTheStrobeAndLatches.1 u W.st W.noReset.rst
  exact ⟨v, hv, congrArg State.st heq, congrArg State.wrOut heq⟩

/-- Where the block stands over an operation of `n + 1` items (R113). -/
theorem operation_timing {s : State} {op : BitVec 3} {m : Mask} {v : Byte} {rest : List HostLine} (hi : s.st = .idle)
    (ho : s.Offers (requestWord op m v) rest) (hop : op.toNat ≤ 5) {n : Nat} (hn : itemCount op = n)
    (hpos : 1 ≤ n) :
    (∀ j, 1 ≤ j → j ≤ n * Config.lItem → ∃ u, runFor j s = .next u ∧ u.st ≠ .idle) ∧
    (∀ i < n, ∃ u, runFor (1 + i * Config.lItem) s = .next u ∧ u.st = .s1 ∧ u.idx.toNat = i) ∧
    (∀ i < n, ∃ u v, runFor (2 + i * Config.lItem) s = .next u ∧ u.st = .s2 ∧
      step u = .next v ∧ v.st = .s3 ∧ v.wrOut = true) ∧
    ∃ t, runFor (1 + n * Config.lItem) s = .next t ∧ t.st = .idle ∧ t.idx.toNat = n - 1 := by
  obtain ⟨k, rfl⟩ : ∃ k, n = k + 1 := ⟨n - 1, by omega⟩
  obtain ⟨t, u, T, hlast, -, hidle, hidx, -, hend⟩ := operation_done hi ho hop hn
  refine ⟨fun j h1 hj => ?_, fun i hlt => ?_, fun i hlt => ?_, u, hend, hidle, by rw [hidx, T.idx]; rfl⟩
  · rw [Nat.succ_mul] at hj
    rcases Nat.lt_or_ge j (1 + k * Config.lItem) with hbefore | hafter
    · exact T.busy j h1 hbefore
    · obtain ⟨x, hx, hb⟩ := hlast.busy (j - (1 + k * Config.lItem)) (by omega)
      rw [← runFor_add _ _ T.run, Nat.add_sub_cancel' hafter] at hx
      exact ⟨x, hx, hb⟩
  · obtain ⟨a, A⟩ := at_item hi ho hop i (by omega)
    exact ⟨a, A.run, A.st, A.idx⟩
  · obtain ⟨a, A⟩ := at_item hi ho hop i (by omega)
    obtain ⟨x, W⟩ := writeCycle_one A.noReset A.st
    obtain ⟨y, hstep, hst, hwr⟩ := W.strobe_rises
    refine ⟨x, y, ?_, W.st, hstep, hst, hwr⟩
    rw [← W.run, ← runFor_add _ _ A.run]
    congr 1
    omega

/-- Settles O51: `operation_timing`, with `Count` written out. -/
theorem operationTiming : Obligations.OperationTiming := by
  intro s w rest hi ho hop n
  rw [← requestWord_fields w] at ho
  rw [← toNat_requestOp] at hop
  have hn : itemCount (requestOp w) = n := by rw [itemCount_eq hop, toNat_requestOp]
  have hpos : 1 ≤ n := by
    show 1 ≤ if _ then 1 else if _ then 4 else 500
    split_ifs <;> decide
  exact operation_timing hi ho hop hn hpos

/-- The one item of a single-byte request (R115, R116, R130, R131, R140). -/
theorem item_single {op : BitVec 3} (hop : op.toNat ≤ 3) (v : Byte) (m : Mask) :
    itemCount op = 1 ∧ item op v m 0 =
      ⟨decide (op = 1), if op = 2 then Mask.both else m,
        .imm (if op = 2 then BitVec.ofNat 8 (0xB8 + v.toNat % 4)
          else if op = 3 then BitVec.ofNat 8 (v.toNat % 128) else v)⟩ := by
  rw [← pageByte_eq_ofNat, ← columnByte_eq_ofNat]
  revert hop
  rcases opcode_cases op with h | h | h | h | h | h | h | h <;> subst h <;> intro hop
  · exact ⟨rfl, rfl⟩
  · exact ⟨rfl, rfl⟩
  · exact ⟨rfl, rfl⟩
  · exact ⟨rfl, rfl⟩
  all_goals exact absurd hop (by decide)

/-- Settles O52: the operation is its one item, `item_single`, and the byte write's effects are `ItemDone`. -/
theorem singleByteRequestsLatchOneByte : Obligations.SingleByteRequestsLatchOneByte := by
  intro s op m v rest hi hop ho dc mask b
  obtain ⟨hcount, hsingle⟩ := item_single hop v m
  obtain ⟨t, u, T, -, D, hidle, hidx, hd, hend⟩ := operation_done hi ho (by omega) hcount
  have hitem : t.item = ⟨dc, mask, .imm b⟩ := T.item.trans hsingle
  have hforeseen : s.Foreseen op := .inl (by omega)
  have htd : t.dOut = b := by rw [T.dOut hforeseen, hsingle]; rfl
  have htime : t.cycle + 1 = s.cycle + 2 := by rw [T.cycle]; omega
  have htrace : t.trace = s.trace := by rw [T.trace hforeseen]; exact List.append_nil _
  have hchip : ∀ j, t.chip j = s.chip j := T.chip hforeseen
  have hutrace := D.trace
  have huchip1 := D.chip1
  have huchip2 := D.chip2
  rw [hitem, htd, htrace, htime] at hutrace
  rw [hitem, htd, show t.chip1 = s.chip1 from hchip .one] at huchip1
  rw [hitem, htd, show t.chip2 = s.chip2 from hchip .two] at huchip2
  exact ⟨u, by simpa using hend, hidle, hutrace, huchip1, huchip2, hd.trans htd, D.dcOut.trans (by rw [hitem]),
    D.cs1n.trans (by rw [hitem]; rfl), D.cs2n.trans (by rw [hitem]; rfl), D.wrOut, D.cop.trans T.cop,
    D.cval.trans T.cval, D.cmsk.trans T.cmsk, hidx.trans (BitVec.eq_of_toNat_eq T.idx), D.errOp.trans T.errOp⟩

end Sys2Proof.Machine
end

section
/-! The items of FLUSH page by page (R140, R141, R145): what each item is, which bytes the items read, and that no two
items read the same byte. -/

namespace Sys2Proof.Machine

open Sys2Proof

/-! ### The items of a page -/

/-- Item `125 r + k` of FLUSH is item `k` of page `r` (R140). -/
theorem item_flush_page {r k : Nat} (hr : r < 4) (hk : k < 125) (v : Byte) (m : Mask) :
    item 5 v m (125 * r + k) = flushPageItem r k :=
  (if_pos (show 125 * r + k < 500 by omega)).trans (flushItem_of_page r hk)

/-- A page begins with its page select at both chips (R140). -/
theorem flushPageItem_select {r : Nat} (hr : r < 4) :
    flushPageItem r 0 = ⟨false, Mask.both, .imm (BitVec.ofNat 8 (0xB8 + r))⟩ := by
  have hpage : (BitVec.ofNat 8 r).toNat % 4 = r := by
    rw [BitVec.toNat_ofNat]
    omega
  rw [flushPageItem, if_pos rfl, pageByte_eq_ofNat, hpage]

/-- Items 64 to 124 of a page by the columns of chip 1 (R140). -/
theorem flushPageItem_right_column (r c : Nat) :
    flushPageItem r (64 + c) = ⟨true, Mask.chip1, .fb (122 * r + 61 + c)⟩ := by
  have hright := flushPageItem_right (Nat.le_add_right 61 c) r
  rwa [Nat.add_sub_cancel_left, fbAddress, ← Nat.add_assoc] at hright

/-! ### The bytes the items read -/

/-- `i(a)` of R145 gives back the place of the item that reads byte `a`. -/
theorem flushIndex_of_reads {r k a : Nat} (hk : k < 125) (h : (flushPageItem r k).src = .fb a) :
    flushIndex a = 125 * r + k := by
  rw [flushPageItem] at h
  rw [flushIndex, fbColumn, fbPage]
  split_ifs at h
  · next hleft =>
    obtain rfl : 122 * r + (k - 2) = a := Src.fb.inj h
    rw [if_pos (by omega)]
    omega
  · next hright =>
    obtain rfl : 122 * r + 61 + (k - 64) = a := Src.fb.inj h
    rw [if_neg (by omega)]
    omega

/-- No item other than `i(a)` reads byte `a` (R145). -/
theorem eq_flushIndex_of_reads {i a : Nat} (hi : i < 500) {v : Byte} {m : Mask} (h : (item 5 v m i).src = .fb a) :
    i = flushIndex a := by
  have hplace : 125 * (i / 125) + i % 125 = i := Nat.div_add_mod i 125
  have hk : i % 125 < 125 := Nat.mod_lt i (by decide)
  rw [← hplace, item_flush_page (by omega) hk] at h
  rw [flushIndex_of_reads hk h, hplace]

/-- Of the opcodes past INIT, only FLUSH has items (R71, R141). -/
theorem flush_or_no_items {op : BitVec 3} (h : ¬ op.toNat ≤ 4) : op = 5 ∨ itemCount op = 0 := by
  revert op
  decide

/-- Every framebuffer byte that an item of an operation reads exists (R50, R140). -/
theorem item_reads_le {op : BitVec 3} {v : Byte} {m : Mask} {i a : Nat} (hi : i < itemCount op)
    (h : (item op v m i).src = .fb a) : a ≤ 487 := by
  by_cases hop : op.toNat ≤ 4
  · obtain ⟨b, hb⟩ := item_src_imm hop v m i
    rw [hb] at h
    cases h
  · rcases flush_or_no_items hop with rfl | hnone
    · exact Nat.lt_succ_iff.1 (flush_reads_lt hi h)
    · omega

/-- Settles O28: the single-byte operations are `item_single`, a FLUSH item is one of its page, and the addresses are
bounded by `item_reads_le`. -/
theorem itemFunctionIsTheTable : Obligations.ItemFunctionIsTheTable := by
  intro v m
  refine ⟨rfl, rfl, (item_single (op := 2) (by decide) v m).2, (item_single (op := 3) (by decide) v m).2, rfl,
    fun r hr => ⟨?_, ?_, ?_, fun c hc => ⟨?_, ?_⟩⟩, fun op i a => item_reads_le, rfl, rfl, rfl, rfl, rfl, rfl⟩
  · exact (item_flush_page hr (by decide) v m).trans (flushPageItem_select hr)
  · exact item_flush_page hr (by decide) v m
  · exact item_flush_page hr (by decide) v m
  · rw [Nat.add_assoc, item_flush_page hr (by omega)]
    exact flushPageItem_left (by omega) r
  · rw [Nat.add_assoc, item_flush_page hr (by omega)]
    exact flushPageItem_right_column r c

/-- Settles O29: the item is `item_flushIndex`, and it is the only one by `eq_flushIndex_of_reads`. -/
theorem flushIndexLocatesEveryByte : Obligations.FlushIndexLocatesEveryByte := by
  intro v m a ha i
  have hmask : (columnChip (fbColumn a)).mask = if a % 122 ≤ 60 then 0b10 else 0b01 := apply_ite ..
  refine ⟨flushIndex_lt ha, ?_, fun i' hi' => eq_flushIndex_of_reads hi'⟩
  rw [← hmask]
  exact item_flushIndex ha v m

end Sys2Proof.Machine
end

section
/-! What a FLUSH latches (R143, R144): the events of an operation seen from one chip, and for a FLUSH the words page by
page. -/

namespace Sys2Proof.Machine

open Sys2Proof

/-! ### The events of an operation -/

/-- The events of one byte, at one chip: the byte, if the mask selects the chip (R111). -/
theorem eventsOf_at_chip (it : Item) (t : Nat) (j : ChipId) (b : Byte) :
    ((eventsOf t it.mask it.dc b).filter fun e => e.chip = j).map (fun e => (e.dc, e.byte)) = it.sentTo j b := by
  rw [eventsOf, Item.sentTo]
  cases j
  · cases h₁ : maskChip1 it.mask <;> cases maskChip2 it.mask <;> simp [maskHas, h₁]
  · cases maskChip1 it.mask <;> cases h₂ : maskChip2 it.mask <;> simp [maskHas, h₂]

/-- The events of an operation, at one chip, are the words it brings there. -/
theorem operationEvents_at_chip (s : State) (op : BitVec 3) (m : Mask) (v : Byte) (t0 i : Nat) (j : ChipId) :
    ((operationEvents s op m v t0 i).filter fun e => e.chip = j).map (fun e => (e.dc, e.byte)) =
      operationWords s op m v j i := by
  simp only [operationEvents, List.filter_flatMap, List.map_flatMap, eventsOf_at_chip, operationWords]

theorem time_of_mem_eventsOf {t : Nat} {m : Mask} {dc : Bool} {b : Byte} {e : LatchEvent}
    (h : e ∈ eventsOf t m dc b) : e.time = t := by
  rcases List.mem_append.1 h with h | h
  · split at h
    · rw [List.mem_singleton.1 h]
    · cases h
  · split at h
    · rw [List.mem_singleton.1 h]
    · cases h

/-- The events of an operation lie `L_ITEM` cycles apart from the first (R113). -/
theorem time_of_mem_operationEvents {s : State} {op : BitVec 3} {m : Mask} {v : Byte} {t0 i : Nat} {e : LatchEvent}
    (h : e ∈ operationEvents s op m v t0 i) : ∃ k < i, e.time = t0 + k * Config.lItem := by
  obtain ⟨k, hk, he⟩ := List.mem_flatMap.1 h
  exact ⟨k, List.mem_range.1 hk, time_of_mem_eventsOf he⟩

/-- After an operation whose bytes are foreseen, the trace has the events of all its items (R111, R113). -/
theorem trace_of_operation_done {s t u : State} {op : BitVec 3} {m : Mask} {v : Byte} {n : Nat}
    (T : AtItem s t op m v n) (D : ItemDone t u) (hf : s.Foreseen op) :
    u.trace = s.trace ++ operationEvents s op m v (s.cycle + 2) (n + 1) := by
  have htime : t.cycle + 1 = s.cycle + 2 + n * Config.lItem := by
    rw [T.cycle]
    omega
  rw [D.trace, T.trace hf, T.item, T.dOut hf, htime, operationEvents_succ, List.append_assoc]

/-! ### The words of a FLUSH -/

/-- `0, …, n k - 1` in `n` runs of `k`. -/
theorem range_mul (k n : Nat) :
    List.range (k * n) = (List.range n).flatMap fun r => (List.range k).map (k * r + ·) := by
  induction n with
  | zero => rfl
  | succ n ih => rw [Nat.mul_succ, List.range_add, ih, List.range_succ, List.flatMap_append, List.flatMap_singleton]

/-- The items of a page: its page select, then for each half a column select and 61 columns (R140). -/
theorem range_page :
    List.range 125 = 0 :: 1 :: (List.range 61).map (2 + ·) ++ 63 :: (List.range 61).map (64 + ·) := by
  decide

theorem maskHas_mask_iff (i j : ChipId) : maskHas j i.mask = true ↔ i = j := by
  cases i <;> cases j <;> decide

theorem maskHas_both (j : ChipId) : maskHas j Mask.both = true := by
  cases j <;> decide

/-- An item at one chip reaches that chip alone (R12). -/
theorem sentTo_single (dc : Bool) (src : Src) (i j : ChipId) (b : Byte) :
    Item.sentTo ⟨dc, i.mask, src⟩ j b = if i = j then [(dc, b)] else [] :=
  if_congr (maskHas_mask_iff i j) rfl rfl

theorem sentTo_both (dc : Bool) (src : Src) (j : ChipId) (b : Byte) :
    Item.sentTo ⟨dc, Mask.both, src⟩ j b = [(dc, b)] :=
  if_pos (maskHas_both j)

theorem sourceByte_imm (s : State) (b : Byte) : s.sourceByte (.imm b) = b := rfl

/-- What the items of a page from item `k` on, that send the 61 columns of chip `i`, bring to chip `j` (R140). -/
theorem flushPage_half_words (s : State) {i j : ChipId} {r k : Nat}
    (hitem : ∀ c < 61, flushPageItem r (k + c) = ⟨true, i.mask, .fb (122 * r + i.firstColumn + c)⟩) :
    ((List.range 61).flatMap fun c =>
        (flushPageItem r (k + c)).sentTo j (s.sourceByte (flushPageItem r (k + c)).src)) =
      if i = j then (List.range 61).map fun c => (true, s.readFb (122 * r + i.firstColumn + c)) else [] := by
  have hword : ∀ c ∈ List.range 61,
      (flushPageItem r (k + c)).sentTo j (s.sourceByte (flushPageItem r (k + c)).src) =
        if i = j then [(true, s.readFb (122 * r + i.firstColumn + c))] else [] := fun c hc => by
    rw [hitem c (List.mem_range.1 hc), sentTo_single, State.sourceByte]
  rw [List.flatMap_congr hword]
  split
  · exact List.flatMap_pure_eq_map ..
  · exact List.flatMap_eq_nil_iff.2 fun _ _ => rfl

/-- A chip takes from a page the page select, and of each half's items those of its own half (R143). -/
theorem flushPage_words (s : State) (j : ChipId) {r : Nat} (hr : r < 4) :
    ((List.range 125).flatMap fun k => (flushPageItem r k).sentTo j (s.sourceByte (flushPageItem r k).src)) =
      (false, BitVec.ofNat 8 (0xB8 + r)) :: (false, 0x00#8) ::
        (List.range 61).map fun c => (true, s.readFb (122 * r + j.firstColumn + c)) := by
  have hleft := flushPage_half_words s (i := .two) (j := j) (k := 2) fun c hc =>
    flushPageItem_left (Nat.lt_succ_iff.1 hc) r
  have hright := flushPage_half_words s (i := .one) (j := j) (k := 64) fun c _ => flushPageItem_right_column r c
  have hselect₂ : flushPageItem r 1 = ⟨false, ChipId.two.mask, .imm 0x00⟩ := rfl
  have hselect₁ : flushPageItem r 63 = ⟨false, ChipId.one.mask, .imm 0x00⟩ := rfl
  simp only [range_page, List.flatMap_append, List.flatMap_cons, List.flatMap_map, hleft, hright,
    flushPageItem_select hr, hselect₁, hselect₂, sentTo_both, sentTo_single, sourceByte_imm]
  cases j
  · rfl
  · exact congrArg (_ :: _ :: ·) (List.append_nil _)

/-- A FLUSH brings each chip its half of the framebuffer, page by page (R143). -/
theorem operationWords_flush (s : State) (m : Mask) (v : Byte) (j : ChipId) :
    operationWords s 5 m v j 500 = flushedAt j s.readFb := by
  rw [operationWords, show 500 = 125 * 4 from rfl, range_mul, List.flatMap_assoc, flushedAt]
  refine List.flatMap_congr fun r hr => ?_
  rw [← flushPage_words s j (List.mem_range.1 hr), List.flatMap_map]
  refine List.flatMap_congr fun k hk => ?_
  rw [item_flush_page (List.mem_range.1 hr) (List.mem_range.1 hk)]

/-- Settles O54: the operation is its 500 items; seen from a chip their words are `operationWords_flush`, and the pins
are those of the last item. -/
theorem flushSendsEveryByteOnce : Obligations.FlushSendsEveryByteOnce := by
  intro s m v rest hi ho hw
  obtain ⟨t, u, T, -, D, hidle, hidx, hd, hend⟩ := operation_done hi ho (by decide) (n := 499) rfl
  rw [show 499 + 1 = 500 from rfl] at hend
  have hforeseen : s.Foreseen 5 := .inr hw
  have hlast : item 5 v m 499 = ⟨true, Mask.chip1, .fb 487⟩ :=
    (item_flush_page (r := 3) (k := 124) (by decide) (by decide) v m).trans rfl
  have hitem : t.item = ⟨true, Mask.chip1, .fb 487⟩ := T.item.trans hlast
  have hbyte : t.dOut = s.readFb 487 := by rw [T.dOut hforeseen, hlast, State.sourceByte]
  have hfb : u.fb = s.fb := (D.fb (T.noFbWrite hw)).trans (T.fb hw)
  refine ⟨u, operationEvents s 5 m v (s.cycle + 2) 500, hend, hidle, trace_of_operation_done T D hforeseen,
    fun j => ?_, fun e he => ?_, readFb_congr hfb, D.cop.trans T.cop, hidx.trans (BitVec.eq_of_toNat_eq T.idx),
    hd.trans hbyte, D.dcOut.trans (by rw [hitem]), D.cs1n.trans (by rw [hitem]; rfl),
    D.cs2n.trans (by rw [hitem]; rfl), D.wrOut, D.errOp.trans T.errOp⟩
  · rw [operationEvents_at_chip, operationWords_flush]
  · obtain ⟨k, hk, htime⟩ := time_of_mem_operationEvents he
    have hlen : k * Config.lItem + Config.lItem ≤ 500 * Config.lItem := by
      rw [← Nat.succ_mul]
      exact Nat.mul_le_mul_right _ hk
    have hitemlen := lItem_eq
    omega

end Sys2Proof.Machine
end

section
/-! The two driven chips (R170 to R180): what a word does at one chip, the select and the forgetting commands, the edge at
which a chip latches, and the chips over a reset. -/

namespace Sys2Proof.Machine

open Sys2Proof

/-! ### A word at the selected chips -/

/-- A chip takes the word exactly when its own select is low; nothing of the other chip is read (R172, R180). -/
theorem atSelectedChips_chip (s : State) (f : Chip → Chip) (j : ChipId) :
    (s.atSelectedChips f).chip j = if s.selectN j then s.chip j else f (s.chip j) := by
  cases j <;> rfl

/-- The same with the selects compared with low, as the statements about one command write it. -/
theorem atSelectedChips_eq (s : State) (f : Chip → Chip) :
    s.atSelectedChips f =
      { s with
        chip1 := if s.cs1n = false then f s.chip1 else s.chip1
        chip2 := if s.cs2n = false then f s.chip2 else s.chip2 } := by
  unfold State.atSelectedChips
  cases s.cs1n <;> cases s.cs2n <;> rfl

/-- `exec_wire` for a word not yet cut into its fields. -/
theorem exec_wireWord (w : BitVec 9) (s : State) :
    exec (decode (.wire w)) s = .next (s.atSelectedChips (Chip.latch (wireDc w) (wireByte w))) := by
  rw [← exec_wire, wireWordOf_fields]

/-- Settles O43: at chip `j` the word is `atSelectedChips_chip`, which reads `j` and its select alone. -/
theorem chipsAreIndependent : Obligations.ChipsAreIndependent := by
  intro w s s' j hchip hselect
  refine ⟨_, _, exec_wireWord w s, exec_wireWord w s', ?_, fun hhigh => ?_⟩
  · rw [atSelectedChips_chip, atSelectedChips_chip, hchip, hselect]
  · rw [atSelectedChips_chip, if_pos hhigh]

/-! ### The edge at which a chip latches -/

/-- The strobe rises exactly over the edge that the chips watch for: `S2`'s is the only one to raise it (R105, R172). -/
theorem strobeRises_eq (s : State) (n : Nat) (inp : Inputs) :
    s.strobeRises = (!s.wrOut && (s.seqNext n inp).wrOut) := by
  cases hlow : s.wrOut
  · by_cases h2 : s.st = .s2
    · simp [State.strobeRises, h2, hlow, seqNext_s2]
    · simp [State.strobeRises, h2, seqNext_wrOut_low h2 hlow]
  · simp [State.strobeRises, hlow]

/-- In a state of the invariant the strobe is low in `S2` (R78), so it rises over every edge that ends it. -/
theorem strobeRises_of_inv {s : State} (h : s.Inv) : s.strobeRises = decide (s.st = .s2) := by
  by_cases h2 : s.st = .s2
  · simp [State.strobeRises, h.strobe, h2]
  · simp [State.strobeRises, h2]

/-- Over any step, by the levels of the strobe before and after it, what happens at a chip (R172). -/
theorem step_chip {s t : State} (hstep : step s = .next t) (j : ChipId) :
    t.chip j =
      if !s.wrOut && t.wrOut && !s.selectN j then (s.chip j).latch s.dcOut s.dOut else s.chip j := by
  rw [step_eq, Host.Outcome.next.injEq] at hstep
  subst hstep
  cases hrst : s.inputs.rst
  · have hrises := strobeRises_eq s Config.nSettle s.inputs
    rw [if_neg Bool.false_ne_true, cycleNext_chip, State.chipAfter, hrises]
    rfl
  · rw [if_pos rfl, tick_wrOut, resetBlock_wrOut, Bool.and_false, Bool.false_and, if_neg Bool.false_ne_true]
    cases j <;> rfl

/-- The events a step adds to the trace (R105, R111). -/
theorem step_trace {s t : State} (hinv : s.Inv) (hstep : step s = .next t) :
    t.trace = s.trace ++ if !s.wrOut && t.wrOut then s.latchEvents else [] := by
  rw [step_eq, Host.Outcome.next.injEq] at hstep
  subst hstep
  cases hrst : s.inputs.rst
  · have hrises := strobeRises_eq s Config.nSettle s.inputs
    rw [strobeRises_of_inv hinv] at hrises
    rw [if_neg Bool.false_ne_true, cycleNext_trace, State.cycleNext, ← hrises]
    by_cases h2 : s.st = .s2 <;> simp [h2]
  · simp

/-- The events of an edge, chip by chip (R111). -/
theorem latchEvents_eq_filter (s : State) (rises : Bool) :
    (if rises then s.latchEvents else []) =
      ([ChipId.one, .two].filter fun j => rises && !s.selectN j).map fun j => ⟨s.cycle, j, s.dcOut, s.dOut⟩ := by
  cases rises
  · rfl
  · simp only [State.latchEvents, List.filter_cons, List.filter_nil, State.selectN, Bool.true_and, if_true]
    cases s.cs1n <;> cases s.cs2n <;> rfl

/-- Settles O44: the chips are `step_chip`, in every state; the events are `step_trace`. -/
theorem chipsLatchExactlyAtARisingStrobe : Obligations.ChipsLatchExactlyAtARisingStrobe := fun s _ hstep =>
  ⟨step_chip hstep, fun hinv => (step_trace hinv hstep).trans (by rw [latchEvents_eq_filter])⟩

/-! ### Chips of which nothing is known -/

/-- The fields of an unknown chip, one by one (R170, R171). -/
theorem fields_of_unknown {c : Chip} (h : c = Chip.unknown) :
    c.page = none ∧ c.col = none ∧ c.on = none ∧ c.start = none ∧ ∀ p k, c.ramAt p k = none := by
  subst h
  exact ⟨rfl, rfl, rfl, rfl, fun _ _ => rfl⟩

/-- Settles O12: the chips of `State.reset` are unknown, and `ResetState` writes no field of a chip or of the trace. -/
theorem resetLeavesTheChipsAlone : Obligations.ResetLeavesTheChipsAlone := by
  refine ⟨fun j => fields_of_unknown (by cases j <;> rfl), fun s t hrst hstep => ?_⟩
  rw [step_eq, if_pos hrst, Host.Outcome.next.injEq] at hstep
  subst hstep
  exact ⟨fun j => by cases j <;> exact ⟨rfl, rfl⟩, rfl⟩

/-! ### Commands -/

/-- A command on the wire, by the number of its byte (R174 to R179). -/
theorem decode_command (d : Byte) : decode (.wire (wireWordOf false d)) = decodeCommand d := decode_wire false d

/-- Settles O40: the bytes are ranges of `decodeCommand_ranges`, and each command is one update of a chip. -/
theorem pageAndColumnSelectSetOneField : Obligations.PageAndColumnSelectSetOneField := by
  refine ⟨fun d => ⟨fun hpage => ?_, fun hcol => ?_⟩, fun s => ⟨fun p => ?_, fun c => ?_⟩⟩
  · have hcol : ¬ d.toNat < 0x80 := by omega
    have hrange : 0xB8 ≤ d.toNat ∧ d.toNat ≤ 0xBB := by omega
    have hbits : BitVec.ofNat 2 d.toNat = BitVec.ofNat 2 (d.toNat % 4) :=
      BitVec.eq_of_toNat_eq (Nat.mod_mod d.toNat 4).symm
    rw [decode_command, decodeCommand_ranges, if_neg hcol, if_pos hrange, hbits]
  · rw [decode_command, decodeCommand_ranges, if_pos hcol]
  · exact congrArg Host.Outcome.next (atSelectedChips_eq s (Chip.selectPage p))
  · exact congrArg Host.Outcome.next (atSelectedChips_eq s (Chip.selectColumn c))

/-- Settles O41: the other commands are what `decodeCommand_ranges` leaves over, and both rows are `Havoc` at the selected
chips. -/
theorem resetAndOtherCommandsForgetTheChip : Obligations.ResetAndOtherCommandsForgetTheChip := by
  refine ⟨fun d => ⟨?_, fun hhigh hpage hreset hon hstart => ?_⟩, fun s i hi => ?_⟩
  · rintro rfl
    exact Laws.RoundTrip.swReset rfl
  · have hcol : ¬ d.toNat < 0x80 := by omega
    have hreset' : d.toNat ≠ 0xE2 := fun h => hreset (BitVec.eq_of_toNat_eq h)
    have hon' : d.toNat ≠ 0xAF := fun h => hon (BitVec.eq_of_toNat_eq h)
    have hstart' : d.toNat ≠ 0xC0 := fun h => hstart (BitVec.eq_of_toNat_eq h)
    rw [decode_command, decodeCommand_ranges, if_neg hcol, if_neg hpage, if_neg hreset', if_neg hon', if_neg hstart']
  · have hexec : exec i s = .next (s.atSelectedChips Chip.havoc) := by
      rcases hi with rfl | ⟨d, rfl⟩ <;> rfl
    refine ⟨_, hexec, rfl, fun j => ⟨fun hselect => ?_, fun hselect => fields_of_unknown ?_⟩⟩
    · rw [atSelectedChips_chip, if_pos hselect]
    · rw [atSelectedChips_chip, hselect]
      rfl

end Sys2Proof.Machine
end

section
/-! Nothing stops the block: every run of every length answers a next state (R200, R204). -/

namespace Sys2Proof.Machine

open Sys2Proof

/-- Every step answers, a reset included, and counts one cycle (R10, R100, R220). -/
theorem step_cycle (s : State) : ∃ t, step s = .next t ∧ t.cycle = s.cycle + 1 := by
  refine ⟨_, step_eq s, ?_⟩
  split
  · exact tick_cycle _ _
  · rfl

/-- Settles O10, by induction on the number of steps: the first is `step_cycle`, the others are the run from there. -/
theorem everyRunCompletes : Obligations.EveryRunCompletes := by
  intro k
  induction k with
  | zero => exact fun s => ⟨s, runFor_zero s, rfl⟩
  | succ k ih =>
    intro s
    obtain ⟨u, hstep, hone⟩ := step_cycle s
    obtain ⟨t, hrun, hcycles⟩ := ih u
    exact ⟨t, (runFor_succ k hstep).trans hrun, by omega⟩

end Sys2Proof.Machine
end

section
/-! The reset: what a cycle with `rst = 1` leaves, and the values of `State.reset` (R220, R221). -/

namespace Sys2Proof.Machine

open Sys2Proof

/-- A cycle with `rst = 1` is `ResetState`, whatever the state and the other inputs (R220). -/
theorem step_reset {s : State} (h : s.inputs.rst = true) : step s = .next (s.resetBlock.tick s.hostAfter) :=
  cycleStep_reset Config.nSettle h

/-- A second reset changes no register: only the clock and the host go on (R220). -/
theorem resetBlock_tick_again (s : State) (rest rest' : List HostLine) :
    (s.resetBlock.tick rest).resetBlock.tick rest' =
      { s.resetBlock.tick rest with host := rest', cycle := (s.resetBlock.tick rest).cycle + 1 } := rfl

/-- After a reset the sequencer is in `IDLE`, so `req_ready` is up unless `rst` is (R30). -/
theorem reqReady_after_reset (s : State) (rest : List HostLine) (inp : Inputs) :
    (s.resetBlock.tick rest).reqReady inp = !inp.rst := by
  rw [reqReady_eq, tick_st, resetBlock_st, decide_eq_true rfl, Bool.true_and]

/-- Settles O11: the edge is `ResetState` (`step_reset`), after which the sequencer is in `IDLE`; a reset of a reset
block is `resetBlock_tick_again`. -/
theorem resetCycleSetsEveryRegister : Obligations.ResetCycleSetsEveryRegister := by
  refine fun s hrst => ⟨_, step_reset hrst, rfl, fun hrun => ?_, fun hagain => ?_⟩
  · rw [reqReady_after_reset, hrun, Bool.not_false]
  · exact ⟨_, step_reset hagain, resetBlock_tick_again s _ _⟩

/-- While no byte has been written, every byte is the unknown one of power-on (R58, R221). -/
theorem readFb_unwritten {s : State} (h : s.fb = []) (a : Nat) : s.readFb a = Config.fb0 a := by
  rw [State.readFb, h, Memory.find?, Option.getD_none]

/-- Settles O13: the registers are those of the definition, and no framebuffer byte has been written. -/
theorem resetStateHasTheSpecsValues : Obligations.ResetStateHasTheSpecsValues :=
  ⟨rfl, rfl, rfl, rfl, rfl, rfl, rfl, rfl, rfl, rfl, rfl, rfl, rfl, rfl, readFb_unwritten rfl⟩

end Sys2Proof.Machine
end

section
/-! A data byte at a chip (R173), a run of data bytes, and the commands that set one field (R174 to R178). -/

namespace Sys2Proof.Machine

open Sys2Proof

/-! ### One data byte -/

/-- A data byte at a known place of the chip's memory is stored there, and the column advances (R173). -/
theorem takeData_known {c : Chip} {p : BitVec 2} {k : BitVec 7} (hp : c.page = some p) (hk : c.col = some k)
    (h : k.toNat ≤ 79) (d : Byte) :
    c.takeData d =
      { c with ram := c.ram.write (ramAddress p.toNat k.toNat) d, col := some (BitVec.ofNat 7 (k.toNat + 1)) } := by
  have hnext : k + 1 = BitVec.ofNat 7 (k.toNat + 1) := by
    rw [BitVec.ofNat_add, BitVec.ofNat_toNat, BitVec.setWidth_eq]
    rfl
  simp only [Chip.takeData, hp, hk, if_pos h, hnext]

/-- A data byte at an unknown place leaves memory and column unknown (R173). -/
theorem takeData_unknown {c : Chip}
    (h : c.page = none ∨ c.col = none ∨ ∃ k, c.col = some k ∧ 80 ≤ k.toNat) (d : Byte) :
    c.takeData d = { c with ram := [], col := none } := by
  unfold Chip.takeData
  split
  · next p k hp hk =>
    rcases h with hnone | hnone | ⟨k', hk', hhigh⟩
    · cases hp.symm.trans hnone
    · cases hk.symm.trans hnone
    · obtain rfl : k = k' := Option.some.inj (hk.symm.trans hk')
      exact if_neg (by omega)
  · rfl

/-- Two places of a chip's memory have two addresses (R170). -/
theorem ramAddress_inj {p p' k k' : Nat} (hk : k < 80) (hk' : k' < 80) :
    ramAddress p k = ramAddress p' k' ↔ p = p' ∧ k = k' := by
  unfold ramAddress
  omega

/-- What the chip's memory holds after a data byte at a known place (R173). -/
theorem ramAt_takeData {c : Chip} {p : BitVec 2} {k : BitVec 7} (hp : c.page = some p) (hk : c.col = some k)
    (h : k.toNat ≤ 79) (d : Byte) (r : Nat) {x : Nat} (hx : x < 80) :
    (c.takeData d).ramAt r x = if r = p.toNat ∧ x = k.toNat then some d else c.ramAt r x := by
  rw [takeData_known hp hk h, Chip.ramAt, find?_write]
  exact if_congr (ramAddress_inj hx (by omega)) rfl rfl

/-- Settles O39: at a selected chip the byte is `takeData`, with the place known (`takeData_known`, `ramAt_takeData`) or
not (`takeData_unknown`). -/
theorem dataByteIsStoredAndTheColumnAdvances : Obligations.DataByteIsStoredAndTheColumnAdvances := by
  refine fun s d => ⟨Laws.RoundTrip.data d rfl, s.atSelectedChips (Chip.takeData d), rfl, rfl, fun j => ?_⟩
  rw [atSelectedChips_chip]
  refine ⟨fun hhigh => if_pos hhigh, fun hlow => ?_⟩
  rw [hlow, if_neg Bool.false_ne_true]
  refine ⟨fun p k hp hk hle => ⟨?_, ?_, fun p' k' _ hk' hne => ?_⟩, fun hunknown => ?_⟩
  · rw [takeData_known hp hk hle]
  · rw [ramAt_takeData hp hk hle d _ (by omega), if_pos ⟨rfl, rfl⟩]
  · rw [ramAt_takeData hp hk hle d _ hk', if_neg (not_and_or.2 hne)]
  · rw [takeData_unknown hunknown]
    exact ⟨rfl, fun _ _ => rfl⟩

/-! ### A run of data bytes -/

theorem latch_data (d : Byte) (c : Chip) : c.latch true d = c.takeData d := by
  rw [Chip.latch, decode_wire]
  rfl

/-- `c'` is `c` after the `n` bytes `f 0, …, f (n - 1)` sent to page `p` from column 0 on. -/
structure Chip.Filled (c c' : Chip) (p : BitVec 2) (f : Nat → Byte) (n : Nat) : Prop where
  page : c'.page = some p
  col : c'.col = some (BitVec.ofNat 7 n)
  on : c'.on = c.on
  start : c'.start = c.start
  ram : ∀ r x, x < 80 → c'.ramAt r x = if r = p.toNat ∧ x < n then some (f x) else c.ramAt r x

/-- One byte more, while there is a column for it. -/
theorem Chip.Filled.succ {c c' : Chip} {p : BitVec 2} {f : Nat → Byte} {n : Nat} (F : c.Filled c' p f n)
    (hn : n < 80) : c.Filled (c'.latch true (f n)) p f (n + 1) := by
  have hcol : (BitVec.ofNat 7 n).toNat = n := by
    rw [BitVec.toNat_ofNat]
    omega
  have hle : (BitVec.ofNat 7 n).toNat ≤ 79 := by omega
  have htake := takeData_known F.page F.col hle (f n)
  rw [latch_data]
  refine ⟨by rw [htake, F.page], by rw [htake, hcol], by rw [htake, F.on], by rw [htake, F.start], fun r x hx => ?_⟩
  rw [ramAt_takeData F.page F.col hle _ _ hx, hcol, F.ram r x hx]
  by_cases hlast : x = n
  · subst hlast
    simp
  · have hold : x < n + 1 ↔ x < n := by omega
    simp [hlast, hold]

/-- Data bytes sent from column 0 on fill the page, column by column (R173). -/
theorem filled_latchAll {c : Chip} {p : BitVec 2} (hp : c.page = some p) (hk : c.col = some 0) (f : Nat → Byte)
    (n : Nat) : n ≤ 80 → c.Filled (c.latchAll ((List.range n).map fun x => (true, f x))) p f n := by
  induction n with
  | zero => exact fun _ => ⟨hp, hk, rfl, rfl, fun r x _ => by simp⟩
  | succ n ih =>
    intro hn
    rw [List.range_succ, List.map_append, latchAll_append]
    exact (ih (by omega)).succ hn

/-! ### Commands that set one field -/

/-- Settles O42: the bytes are the encodings of the two rows, and each command is one update of a chip. -/
theorem displayOnAndStartAddressSetOneField : Obligations.DisplayOnAndStartAddressSetOneField := fun s =>
  ⟨Laws.RoundTrip.displayOn rfl, Laws.RoundTrip.startLine rfl,
    congrArg Host.Outcome.next (atSelectedChips_eq s Chip.displayOn),
    congrArg Host.Outcome.next (atSelectedChips_eq s Chip.startAddress)⟩

/-- The four page select bytes at a chip (R174). -/
theorem latch_pageByte {r : Nat} (hr : r < 4) (c : Chip) :
    c.latch false (BitVec.ofNat 8 (0xB8 + r)) = c.selectPage (BitVec.ofNat 2 r) := by
  interval_cases r <;> rfl

theorem latch_columnZero (c : Chip) : c.latch false 0x00#8 = c.selectColumn 0 := rfl

theorem latch_swReset (c : Chip) : c.latch false 0xE2 = Chip.unknown := rfl

theorem latch_displayOn (c : Chip) : c.latch false 0xAF = c.displayOn := rfl

theorem latch_startLine (c : Chip) : c.latch false 0xC0 = c.startAddress := rfl

end Sys2Proof.Machine
end

section
/-! Whole operations at the chips: what INIT sends (R142), what a FLUSH leaves in each chip (R143, R173), and the panel
after it (R181). -/

namespace Sys2Proof.Machine

open Sys2Proof

/-- After an operation whose bytes are foreseen, a chip has latched the words of all its items (R113, R172). -/
theorem chip_of_operation_done {s t u : State} {op : BitVec 3} {m : Mask} {v : Byte} {n : Nat}
    (T : AtItem s t op m v n) (D : ItemDone t u) (hf : s.Foreseen op) (j : ChipId) :
    u.chip j = (s.chip j).latchAll (operationWords s op m v j (n + 1)) := by
  rw [D.chip, T.chip hf, T.item, T.dOut hf, operationWords_succ, latchAll_append]

/-! ### INIT -/

/-- The latch events of a byte sent to both chips in cycle `t`. -/
theorem eventsOf_both (t : Nat) (b : Byte) :
    eventsOf t Mask.both false b = [⟨t, .one, false, b⟩, ⟨t, .two, false, b⟩] := rfl

/-- The four items of INIT (R140, R142). -/
theorem item_init (v : Byte) (m : Mask) :
    item 4 v m 0 = ⟨false, Mask.both, .imm 0xE2⟩ ∧ item 4 v m 1 = ⟨false, Mask.both, .imm 0xAF⟩ ∧
    item 4 v m 2 = ⟨false, Mask.both, .imm 0xC0⟩ ∧ item 4 v m 3 = ⟨false, Mask.both, .imm 0xBB⟩ :=
  ⟨rfl, rfl, rfl, rfl⟩

/-- The events of INIT, item by item (R142). -/
theorem operationEvents_init (s : State) (m : Mask) (v : Byte) (t0 : Nat) :
    operationEvents s 4 m v t0 4 =
      eventsOf t0 Mask.both false 0xE2 ++ eventsOf (t0 + Config.lItem) Mask.both false 0xAF ++
        eventsOf (t0 + 2 * Config.lItem) Mask.both false 0xC0 ++
        eventsOf (t0 + 3 * Config.lItem) Mask.both false 0xBB := by
  have hnone : operationEvents s 4 m v t0 0 = [] := rfl
  simp only [operationEvents_succ, hnone, item_init, sourceByte_imm, Nat.zero_mul, Nat.add_zero, Nat.one_mul,
    List.nil_append]

/-- The words INIT brings to each chip (R142). -/
theorem operationWords_init (s : State) (m : Mask) (v : Byte) (j : ChipId) :
    operationWords s 4 m v j 4 = [(false, 0xE2), (false, 0xAF), (false, 0xC0), (false, 0xBB)] := by
  have hnone : operationWords s 4 m v j 0 = [] := rfl
  simp only [operationWords_succ, hnone, item_init, sourceByte_imm, sentTo_both, List.nil_append, List.cons_append]

/-- What INIT's words make of a chip, whatever it held (R174, R176 to R178). -/
theorem latchAll_init (c : Chip) :
    c.latchAll [(false, 0xE2), (false, 0xAF), (false, 0xC0), (false, 0xBB)] =
      { page := some 3, col := none, ram := [], on := some .isOn, start := some .zero } := by
  simp only [latchAll_cons, latchAll_nil, latch_swReset, latch_displayOn, latch_startLine]
  exact latch_pageByte (r := 3) (by decide) _

/-- Settles O53: the operation is its four items; the trace has `operationEvents_init`, the chips are `latchAll_init`,
and the pins are those of the last item. -/
theorem initSendsItsFourBytes : Obligations.InitSendsItsFourBytes := by
  intro s m v rest hi ho L both
  obtain ⟨t, u, T, -, D, hidle, hidx, hd, hend⟩ := operation_done hi ho (by decide) (n := 3) rfl
  have hforeseen : s.Foreseen 4 := .inl (by decide)
  obtain ⟨-, -, -, hlast⟩ := item_init v m
  have hitem : t.item = ⟨false, Mask.both, .imm 0xBB⟩ := T.item.trans hlast
  have hbyte : t.dOut = 0xBB := by rw [T.dOut hforeseen, hlast, sourceByte_imm]
  refine ⟨u, hend, hidle, D.cop.trans T.cop, hidx.trans (BitVec.eq_of_toNat_eq T.idx), ?_, hd.trans hbyte,
    D.dcOut.trans (by rw [hitem]), D.cs1n.trans (by rw [hitem]; rfl), D.cs2n.trans (by rw [hitem]; rfl), D.wrOut,
    D.errOp.trans T.errOp, fun j => ?_⟩
  · rw [trace_of_operation_done T D hforeseen, operationEvents_init]
    simp only [eventsOf_both, List.append_assoc]
    rfl
  · rw [chip_of_operation_done T D hforeseen, operationWords_init, latchAll_init]

/-! ### FLUSH -/

/-- What a page of FLUSH brings to a chip that is to hold the bytes `f 0, …, f 60` there (R143). -/
def pageWords (r : Nat) (f : Nat → Byte) : List (Bool × Byte) :=
  (false, BitVec.ofNat 8 (0xB8 + r)) :: (false, 0x00#8) :: (List.range 61).map fun x => (true, f x)

theorem flushedAt_eq_pages (j : ChipId) (f : Nat → Byte) :
    flushedAt j f = (List.range 4).flatMap fun r => pageWords r fun x => f (122 * r + j.firstColumn + x) := rfl

/-- `c'` is `c` with the pages below `n` flushed: columns 0 to 60 of page `r` hold `g r`, and the chip stands behind the
last of them (R143, R173). -/
structure Chip.Flushed (c c' : Chip) (g : Nat → Nat → Byte) (n : Nat) : Prop where
  place : ∀ r, n = r + 1 → c'.page = some (BitVec.ofNat 2 r) ∧ c'.col = some 61
  on : c'.on = c.on
  start : c'.start = c.start
  ram : ∀ r x, x < 80 → c'.ramAt r x = if r < n ∧ x < 61 then some (g r x) else c.ramAt r x

/-- A page's words select the page and column 0 and fill its columns 0 to 60 (R143, R173 to R175). -/
theorem filled_pageWords {r : Nat} (hr : r < 4) (f : Nat → Byte) (c : Chip) :
    c.Filled (c.latchAll (pageWords r f)) (BitVec.ofNat 2 r) f 61 := by
  simp only [pageWords, latchAll_cons, latch_pageByte hr, latch_columnZero]
  obtain ⟨hpage, hcol, hon, hstart, hram⟩ :=
    filled_latchAll (c := (c.selectPage (BitVec.ofNat 2 r)).selectColumn 0) rfl rfl f 61 (by decide)
  exact ⟨hpage, hcol, hon, hstart, hram⟩

/-- The next page, whose words touch no other. -/
theorem Chip.Flushed.succ {c c' : Chip} {g : Nat → Nat → Byte} {n : Nat} (F : c.Flushed c' g n) (hn : n < 4) :
    c.Flushed (c'.latchAll (pageWords n (g n))) g (n + 1) := by
  obtain ⟨hpage, hcol, hon, hstart, hram⟩ := filled_pageWords hn (g n) c'
  have hnum : (BitVec.ofNat 2 n).toNat = n := by
    rw [BitVec.toNat_ofNat]
    omega
  refine ⟨fun r hlast => ?_, hon.trans F.on, hstart.trans F.start, fun r x hx => ?_⟩
  · obtain rfl : n = r := Nat.succ.inj hlast
    exact ⟨hpage, hcol⟩
  · rw [hram r x hx, hnum, F.ram r x hx]
    by_cases hlast : r = n
    · subst hlast
      simp
    · have hold : r < n + 1 ↔ r < n := by omega
      simp [hlast, hold]

/-- Page by page, the words of a FLUSH flush the chip (R143). -/
theorem flushed_latchAll (c : Chip) (g : Nat → Nat → Byte) (n : Nat) :
    n ≤ 4 → c.Flushed (c.latchAll ((List.range n).flatMap fun r => pageWords r (g r))) g n := by
  induction n with
  | zero => exact fun _ => ⟨fun r h => absurd h (Nat.succ_ne_zero r).symm, rfl, rfl, fun r x _ => by simp⟩
  | succ n ih =>
    intro hn
    rw [List.range_succ, List.flatMap_append, List.flatMap_singleton, latchAll_append]
    exact (ih (by omega)).succ hn

/-- Settles O56: a chip has latched the words of its half (`operationWords_flush`), and page by page they fill it
(`flushed_latchAll`). -/
theorem flushIsLossless : Obligations.FlushIsLossless := by
  intro s m v rest hi ho hw
  obtain ⟨t, u, T, -, D, -, -, -, hend⟩ := operation_done hi ho (by decide) (n := 499) rfl
  rw [show 499 + 1 = 500 from rfl] at hend
  refine ⟨u, hend, fun j => ?_⟩
  have hwords := chip_of_operation_done T D (.inr hw) j
  rw [operationWords_flush, flushedAt_eq_pages] at hwords
  have F := flushed_latchAll (s.chip j) (fun r x => s.readFb (122 * r + j.firstColumn + x)) 4 le_rfl
  rw [← hwords] at F
  obtain ⟨hpage, hcol⟩ := F.place 3 rfl
  refine ⟨hpage, hcol, F.on, F.start, fun r hr => ⟨fun x hx => ?_, fun x hlow hx => ?_⟩⟩
  · rw [F.ram r x (by omega), if_pos ⟨hr, hx⟩]
  · rw [F.ram r x hx, if_neg (by omega)]

/-! ### The panel -/

/-- A pixel is known when its chip is on with start line 0 and holds its byte (R181). -/
theorem panelPixel_known {s : State} {x y : Nat} {b : Byte}
    (hon : (s.chip (columnChip x)).on = some .isOn) (hstart : (s.chip (columnChip x)).start = some .zero)
    (hram : (s.chip (columnChip x)).ramAt (y / 8) (chipColumn x) = some b) :
    s.panelPixel x y = some (b.getLsbD (y % 8)) := by
  have hchip : s.panelChip x = s.chip (columnChip x) := by
    unfold State.panelChip
    cases columnChip x <;> rfl
  simp only [State.panelPixel, hchip, hon, hstart, hram]

theorem chipColumn_lt {x : Nat} (hx : x < 122) : chipColumn x < 61 := by
  unfold chipColumn
  split <;> omega

/-- Settles O57: the FLUSH is lossless, leaves the framebuffer and the chips' on and start alone, and the panel's layout
is the framebuffer's (`firstColumn_add_chipColumn`). -/
theorem panelShowsTheFramebufferAfterFlush : Obligations.PanelShowsTheFramebufferAfterFlush := by
  intro s m v rest hi ho hw hshown
  obtain ⟨t, hrun, hchips⟩ := flushIsLossless s m v rest hi ho hw
  obtain ⟨t', -, hrun', -, -, -, -, hfb, -⟩ := flushSendsEveryByteOnce s m v rest hi ho hw
  obtain rfl : t = t' := Host.Outcome.next.inj (hrun.symm.trans hrun')
  refine ⟨t, hrun, fun x hx y hy => ⟨?_, ?_⟩⟩
  · obtain ⟨-, -, hon, hstart, hram⟩ := hchips (columnChip x)
    obtain ⟨hon', hstart'⟩ := hshown (columnChip x)
    obtain ⟨hheld, -⟩ := hram (y / 8) (by omega)
    have hbyte := hheld (chipColumn x) (chipColumn_lt hx)
    rw [Nat.add_assoc, firstColumn_add_chipColumn] at hbyte
    exact panelPixel_known (hon.trans hon') (hstart.trans hstart') hbyte
  · rw [State.fbPixel, State.fbPixel, hfb]

end Sys2Proof.Machine
end

section
/-! The invariants at `State.reset` and the memories over a step (R50, R170, R220), the words of 95_test_vectors.md, and
numbered words placed for the next step (log entry 7). -/

namespace Sys2Proof.Machine

open Sys2Proof

/-! ### Invariants -/

/-- Settles O47: a reset leaves the memories alone, and any other cycle writes the framebuffer by its action and a chip
by the word it latches. -/
theorem stepKeepsMemoriesCanonical : Obligations.StepKeepsMemoriesCanonical := by
  intro s t hfb hram1 hram2 hstep
  rw [step_eq, Host.Outcome.next.injEq] at hstep
  subst hstep
  split
  · exact ⟨hfb, hram1, hram2⟩
  · exact ⟨fbAfter_wf hfb _, chipAfter_ramWf hram1 s _, chipAfter_ramWf hram2 s _⟩

/-- Settles O45: the registers of `State.reset` are those a reset leaves (`seqInv_resetBlock`), its memories list no
byte and its trace has no event. -/
theorem resetMeetsTheInvariants : Obligations.ResetMeetsTheInvariants := by
  obtain ⟨htiming, hidx, hcontrols, hdata⟩ := seqInv_resetBlock State.reset []
  refine ⟨inv_iff.2 ⟨⟨htiming, hidx, hcontrols, hdata⟩, wf_nil 488, wf_nil 320, wf_nil 320⟩, ⟨rfl, rfl⟩, ?_, ?_⟩
  · exact fun e he => absurd he List.not_mem_nil
  · exact List.Pairwise.nil

/-! ### Sample words -/

/-- A word decodes to the well-formed instruction it encodes. -/
theorem decode_of_encode {i : Instr} {w : PortWord} (hwf : i.wf = true) (h : encode i = w) : decode w = i :=
  h ▸ Laws.decodeOfEncodeIsIdentity i hwf

/-- Settles O5: each word is the encoding of the row written beside it. -/
theorem sampleWordsDecodeAsTheSpecSays : Obligations.SampleWordsDecodeAsTheSpecSays :=
  ⟨decode_of_encode rfl rfl, decode_of_encode rfl rfl, decode_of_encode rfl rfl, decode_of_encode rfl rfl,
    decode_of_encode rfl rfl, decode_of_encode rfl rfl, decode_of_encode rfl rfl, decode_of_encode rfl rfl,
    decode_of_encode rfl rfl, decode_of_encode rfl rfl, decode_of_encode rfl rfl, decode_of_encode rfl rfl,
    decode_of_encode rfl rfl, decode_of_encode rfl rfl, decode_of_encode rfl rfl, decode_of_encode rfl rfl,
    decode_of_encode rfl rfl, decode_of_encode (by decide) rfl⟩

/-! ### Placed words -/

/-- A step goes on with what `hostAfter` leaves of the program (R81). -/
theorem host_of_step {s t : State} (h : step s = .next t) : t.host = s.hostAfter := by
  obtain ⟨t', h', hhost⟩ := step_host s
  obtain rfl : t' = t := Host.Outcome.next.inj (h'.symm.trans h)
  exact hhost

theorem decode_wf (w : PortWord) : (decode w).wf = true := (Laws.encodeOfDecodeIsIdentity w).1

/-- A request line leaves the framebuffer port idle (R81, R162). -/
theorem exec_action_ofRequest (w : BitVec 13) (s : State) :
    exec (decode (.action (Inputs.ofRequest w).actionWord)) s = .next s := by
  obtain ⟨hfb, hrdata, haddr⟩ := fbPort_ofRequest s w
  rw [exec_action, hfb, hrdata, haddr]

/-- A placed request is offered in `IDLE`, and the next step is its acceptance (R103). -/
theorem step_placed_request (s : State) (r : BitVec 13) :
    ∃ t u, exec (decode (.request r)) (s.placeWord (.request r)) = .next u ∧
      step (s.placeWord (.request r)) = .next t ∧ t = { u with host := s.host, cycle := s.cycle + 1 } := by
  have hinp : (s.placeWord (.request r)).inputs = .ofRequest r := rfl
  have hhost : (s.placeWord (.request r)).hostAfter = s.host := hostAfter_request (w := r) rfl
  obtain ⟨u, u', hexec, hport, hstep⟩ :=
    stepRunsTheOfferedRequest (s.placeWord (.request r)) _ rfl rfl rfl rfl (decode_wf (.request r))
  rw [hinp, exec_action_ofRequest, Host.Outcome.next.injEq] at hport
  subst hport
  rw [hhost] at hstep
  exact ⟨_, u, hexec, hstep, rfl⟩

/-- A placed action is on the framebuffer port in the next step (R160 to R162). -/
theorem step_placed_action (s : State) (a : BitVec 19) :
    ∃ t u, exec (decode (.action a)) (s.placeWord (.action a)) = .next u ∧
      step (s.placeWord (.action a)) = .next t ∧ t.host = s.host ∧
      (s.placeWord (.action a)).inputs.actionWord = a ∧
      t.fb = u.fb ∧ t.fbRdata = u.fbRdata ∧ t.errAddr = u.errAddr := by
  have hword : (s.placeWord (.action a)).inputs.actionWord = a := actionWord_ofAction a
  obtain ⟨t, u, hexec, hstep, hfields⟩ :=
    stepRunsTheFramebufferAction (s.placeWord (.action a)) (decode (.action a)) rfl (by rw [hword])
      (decode_wf (.action a))
  exact ⟨t, u, hexec, hstep, host_of_step hstep, hword, hfields⟩

/-- A placed wire word is on the pins when the strobe rises in the next step (R105, R172). -/
theorem step_placed_wire (s : State) (x : BitVec 9) :
    ∃ t u, exec (decode (.wire x)) (s.placeWord (.wire x)) = .next u ∧
      step (s.placeWord (.wire x)) = .next t ∧ t.host = s.host ∧
      t.chip1 = u.chip1 ∧ t.chip2 = u.chip2 ∧ t.wrOut = true ∧ t.st = .s3 := by
  have hpins : wireWordOf (s.placeWord (.wire x)).dcOut (s.placeWord (.wire x)).dOut = x := wireWordOf_fields x
  obtain ⟨t, u, hexec, hstep, heffects⟩ :=
    stepRunsTheWireWordAtTheStrobe (s.placeWord (.wire x)) (decode (.wire x)) rfl rfl rfl (by rw [hpins])
      (decode_wf (.wire x))
  exact ⟨t, u, hexec, hstep, host_of_step hstep, heffects⟩

/-- Settles O9: the numbering is `tablePortWord` at 16 and 24 bits, and each kind of word has its lemma on the step
after it is placed. -/
theorem placedWordIsWhatTheStepRuns : Obligations.PlacedWordIsWhatTheStepRuns := by
  refine ⟨fun w => ⟨rfl, rfl⟩, fun s nbits w => ?_⟩
  simp only [State.withFetchWord, decodeTableWord]
  cases tablePortWord nbits w with
  | error e => exact ⟨rfl, rfl⟩
  | ok word =>
    cases word with
    | request r =>
      obtain ⟨t, u, hexec, hstep, heq⟩ := step_placed_request s r
      exact ⟨rfl, rfl, t, u, hexec, hstep, by rw [heq], rfl, rfl, rfl, heq⟩
    | action a =>
      obtain ⟨t, u, hexec, hstep, hhost, heffects⟩ := step_placed_action s a
      exact ⟨rfl, rfl, t, u, hexec, hstep, hhost, heffects⟩
    | wire x =>
      obtain ⟨t, u, hexec, hstep, hhost, heffects⟩ := step_placed_wire s x
      exact ⟨rfl, rfl, t, u, hexec, hstep, hhost, rfl, rfl, rfl, rfl, wireWordOf_fields x, heffects⟩

end Sys2Proof.Machine
end
